-- ==== Sys2Proof/Word.lean ====
section
/-! DEFINITION. The words and identifiers of the SEG7 block: command words, values, bytes, pins, channels, lines, the
two agents, and a triple indexed by digit position. -/

namespace Sys2Proof

/-- A command word: 40 bits, `OPC` in bits 39..32 and `DATA` in bits 31..0 (30_encoding.md R70). -/
abbrev CmdWord := BitVec 40

/-- The data field of a command word, and the 32-bit unsigned values the commands take and return (R70, R72, R220). -/
abbrev Val := BitVec 32

/-- A SegmentPattern byte, one entry of the segment table, one SPI byte (20_memory.md R50, R54). -/
abbrev Byte := BitVec 8

/-- A pin number, 4 bits; alone it is a PinId (10_state.md R24). -/
abbrev PinId := BitVec 4

/-- A port number, 4 bits (R24). -/
abbrev PortNo := BitVec 4

/-- A serial channel number, 4 bits (R24). -/
abbrev ChannelId := BitVec 4

/-- A decimal digit, 0 to 9, which is also an index of the segment table (20_memory.md R56; 10_state.md R29). -/
abbrev Digit := Fin 10

/-- An output line, a port and pin pair; two are equal exactly when both parts are (R24). -/
structure LineId where
  port : PortNo
  pin  : PinId
  deriving DecidableEq, Repr, Inhabited

/-- Three like things, one per digit position: hundreds, tens, units (10_state.md R26, R29; 41_digit_multiplexer.md R123). -/
structure PerDigit (α : Type) where
  hundreds : α
  tens     : α
  units    : α
  deriving DecidableEq, Repr

/-- The two agents, and the command input each of them owns: the background context and the interrupt context
(30_encoding.md R71; 60_exceptions.md R232). -/
inductive Agent where
  | bg
  | irq
  deriving DecidableEq, Repr, Inhabited

/-- The logical level of an output line (00_scope.md R16). -/
inductive Level where
  | asserted
  | deasserted
  deriving DecidableEq, Repr, Inhabited

end Sys2Proof
end

