-- ==== Sys2Proof/Syntax.lean ====
section
/-! DEFINITION. The command set: one constructor per row of spec/opcode_table.json (30_encoding.md R74). -/

namespace Sys2Proof

/-- The nine commands, their operands named as in 30_encoding.md R72. -/
inductive Instr where
  /-- `CFG_LED LINE` (43_configuration.md R190). -/
  | cfgLed (line : LineId)
  /-- `CFG_BTN PIN` (R191). -/
  | cfgBtn (pin : PinId)
  /-- `CFG_DISP H, T, U` (R192). -/
  | cfgDisp (h t u : LineId)
  /-- `CFG_CHAN CH, CS` (R193). -/
  | cfgChan (ch : ChannelId) (cs : LineId)
  /-- `ENC VAL` (40_segment_encoder.md R103). -/
  | enc (val : Val)
  /-- `XMIT VAL` (41_digit_multiplexer.md R130). -/
  | xmit (val : Val)
  /-- `RENDER VAL` (41_digit_multiplexer.md R124). -/
  | render (val : Val)
  /-- `RDCNT` (42_counter_event.md R170). -/
  | rdcnt
  /-- `EVENT PIN`, on the IRQ port only (42_counter_event.md R161). -/
  | event (pin : PinId)
  deriving DecidableEq, Repr

end Sys2Proof
end

