-- ==== Sys2Proof/WellFormed.lean ====
section
/-! DEFINITION. What makes a command well formed: it stands on the port that may carry it (60_exceptions.md R232), and,
where it comes from the assembler, every number it is written with fits its field (30_encoding.md R81). The operands of
Instr are bit vectors of their fields' widths, so no other check is left for it. -/

namespace Sys2Proof

/-- The port that carries an instruction (30_encoding.md R71, R74: `EVENT` on IRQ, every other command on BG). -/
def Instr.port (i : Instr) : Agent :=
  match i with
  | .cfgLed _ => .bg
  | .cfgBtn _ => .bg
  | .cfgDisp _ _ _ => .bg
  | .cfgChan _ _ => .bg
  | .enc _ => .bg
  | .xmit _ => .bg
  | .render _ => .bg
  | .rdcnt => .bg
  | .event _ => .irq

/-- An instruction is well formed on a port exactly when the context of that port may issue it (R232). -/
def Instr.wellFormedOn (p : Agent) (i : Instr) : Bool := i.port == p

/-- A LineId as the assembler writes it, `P<port>.<pin>`, its numbers not yet checked (R81). -/
structure SrcLine where
  port : Nat
  pin  : Nat
  deriving DecidableEq, Repr

/-- A command as the assembler writes it, its numbers not yet checked (R81). -/
inductive SrcInstr where
  | cfgLed (line : SrcLine)
  | cfgBtn (pin : Nat)
  | cfgDisp (h t u : SrcLine)
  | cfgChan (ch : Nat) (cs : SrcLine)
  | enc (val : Nat)
  | xmit (val : Nat)
  | render (val : Nat)
  | rdcnt
  | event (pin : Nat)
  deriving DecidableEq, Repr

/-- Both numbers of a written LineId are in 0 to 15 (R81). -/
def SrcLine.wellFormed (l : SrcLine) : Bool := l.port < 16 && l.pin < 16

/-- Every written operand fits its field; where one does not, the line is an assembly error (R81, D14). -/
def SrcInstr.wellFormed (i : SrcInstr) : Bool :=
  match i with
  | .cfgLed l => l.wellFormed
  | .cfgBtn n => n < 16
  | .cfgDisp h t u => h.wellFormed && t.wellFormed && u.wellFormed
  | .cfgChan c l => c < 16 && l.wellFormed
  | .enc v => v < 2 ^ 32
  | .xmit v => v < 2 ^ 32
  | .render v => v < 2 ^ 32
  | .rdcnt => true
  | .event n => n < 16

end Sys2Proof
end

