-- ==== Sys2Proof/Decode.lean ====
section
/-! DEFINITION. Decoding of 40-bit command words, total on every word and port (30_encoding.md R75), the encoder, and the
opcode map as data (R74). -/

namespace Sys2Proof

/-- A LineId as its 8 bits: port in bits 7..4, pin in bits 3..0 (10_state.md R24). -/
def LineId.toBits (l : LineId) : BitVec 8 := l.port ++ l.pin

/-- The LineId that 8 bits hold (10_state.md R24; 30_encoding.md R73). -/
def LineId.ofBits (b : BitVec 8) : LineId := { port := b.extractLsb' 4 4, pin := b.extractLsb' 0 4 }

/-- `OPC`, bits 39..32 (R70). -/
def opcode (w : CmdWord) : BitVec 8 := w.extractLsb' 32 8

/-- `DATA`, bits 31..0 (R70). -/
def dataField (w : CmdWord) : Val := w.extractLsb' 0 32

/-- The word with a given `OPC` and `DATA` (R70). -/
def mkWord (opc : BitVec 8) (data : Val) : CmdWord := opc ++ data

/-- What a word on a port is: a command, an illegal BG word (R76, R77), or an ignored IRQ word (R78). -/
inductive Decoded where
  | instr (i : Instr)
  | illegal (w : CmdWord)
  | ignored
  deriving DecidableEq, Repr

/-- Decode of a word on the BG port: the case of R75, its reserved `DATA` bits checked (R76, R77). -/
def decodeBg (w : CmdWord) : Decoded :=
  let d := dataField w
  if opcode w = 0x01#8 then
    if d.extractLsb' 8 24 = 0#24 then .instr (.cfgLed (LineId.ofBits (d.extractLsb' 0 8))) else .illegal w
  else if opcode w = 0x02#8 then
    if d.extractLsb' 4 28 = 0#28 then .instr (.cfgBtn (d.extractLsb' 0 4)) else .illegal w
  else if opcode w = 0x03#8 then
    if d.extractLsb' 24 8 = 0#8 then
      .instr (.cfgDisp (LineId.ofBits (d.extractLsb' 16 8)) (LineId.ofBits (d.extractLsb' 8 8))
        (LineId.ofBits (d.extractLsb' 0 8)))
    else .illegal w
  else if opcode w = 0x04#8 then
    if d.extractLsb' 12 20 = 0#20 then
      .instr (.cfgChan (d.extractLsb' 8 4) (LineId.ofBits (d.extractLsb' 0 8)))
    else .illegal w
  else if opcode w = 0x10#8 then .instr (.enc d)
  else if opcode w = 0x11#8 then .instr (.xmit d)
  else if opcode w = 0x12#8 then .instr (.render d)
  else if opcode w = 0x20#8 then
    if d = 0#32 then .instr .rdcnt else .illegal w
  else .illegal w

/-- Decode of a word on the IRQ port: a well-formed `EVENT`, or ignored (R75, R78). -/
def decodeIrq (w : CmdWord) : Decoded :=
  let d := dataField w
  if opcode w = 0x30#8 ∧ d.extractLsb' 4 28 = 0#28 then .instr (.event (d.extractLsb' 0 4)) else .ignored

/-- Decode of a word on a port, total (R75). -/
def decode (p : Agent) (w : CmdWord) : Decoded :=
  match p with
  | .bg => decodeBg w
  | .irq => decodeIrq w

/-- The word of an instruction, its reserved bits zero (R72, R74, R81). -/
def encode (i : Instr) : CmdWord :=
  match i with
  | .cfgLed l => mkWord 0x01#8 (0#24 ++ l.toBits)
  | .cfgBtn n => mkWord 0x02#8 (0#28 ++ n)
  | .cfgDisp h t u => mkWord 0x03#8 (0#8 ++ h.toBits ++ t.toBits ++ u.toBits)
  | .cfgChan c l => mkWord 0x04#8 (0#20 ++ c ++ l.toBits)
  | .enc v => mkWord 0x10#8 v
  | .xmit v => mkWord 0x11#8 v
  | .render v => mkWord 0x12#8 v
  | .rdcnt => mkWord 0x20#8 0#32
  | .event n => mkWord 0x30#8 (0#28 ++ n)

/-- One row of the opcode map (R74): the mnemonic, the port, and match and mask over the 40-bit word. -/
structure OpcodeRow where
  mnemonic : String
  port     : Agent
  pattern  : BitVec 40
  mask     : BitVec 40
  deriving DecidableEq, Repr

/-- The row of the opcode map that an instruction stands for (R74). -/
def Instr.row (i : Instr) : OpcodeRow :=
  match i with
  | .cfgLed _ => ⟨"CFG_LED", .bg, 0x0100000000#40, 0xFFFFFFFF00#40⟩
  | .cfgBtn _ => ⟨"CFG_BTN", .bg, 0x0200000000#40, 0xFFFFFFFFF0#40⟩
  | .cfgDisp _ _ _ => ⟨"CFG_DISP", .bg, 0x0300000000#40, 0xFFFF000000#40⟩
  | .cfgChan _ _ => ⟨"CFG_CHAN", .bg, 0x0400000000#40, 0xFFFFFFF000#40⟩
  | .enc _ => ⟨"ENC", .bg, 0x1000000000#40, 0xFF00000000#40⟩
  | .xmit _ => ⟨"XMIT", .bg, 0x1100000000#40, 0xFF00000000#40⟩
  | .render _ => ⟨"RENDER", .bg, 0x1200000000#40, 0xFF00000000#40⟩
  | .rdcnt => ⟨"RDCNT", .bg, 0x2000000000#40, 0xFFFFFFFFFF#40⟩
  | .event _ => ⟨"EVENT", .irq, 0x3000000000#40, 0xFFFFFFFFF0#40⟩

/-- The opcode map, in the order of R74. -/
def opcodeTable : List OpcodeRow :=
  [(Instr.cfgLed ⟨0, 0⟩).row, (Instr.cfgBtn 0).row, (Instr.cfgDisp ⟨0, 0⟩ ⟨0, 0⟩ ⟨0, 0⟩).row,
   (Instr.cfgChan 0 ⟨0, 0⟩).row, (Instr.enc 0).row, (Instr.xmit 0).row, (Instr.render 0).row, Instr.rdcnt.row,
   (Instr.event 0).row]

/-- A word is the command of a row exactly when it came in on the row's port and matches under the mask (R74). -/
def OpcodeRow.matches (r : OpcodeRow) (p : Agent) (w : CmdWord) : Bool :=
  r.port == p && (w &&& r.mask) == r.pattern

/-- The command word whose bits are `w`, the bits above `nbits` zero (R70, R11; log entry 20). -/
def tableWord (nbits w : Nat) : CmdWord := BitVec.ofNat 40 (w % 2 ^ nbits)

/-- The port a table row's word is given to: IRQ for the opcode of `EVENT`, BG for every other (R74; log entry 20). -/
def tablePort (w : CmdWord) : Agent := if opcode w = 0x30#8 then .irq else .bg

/-- The instruction the decoder reads from a table row's word; none where it is illegal or ignored. -/
def decodeTableWord (nbits w : Nat) : Option Instr :=
  match decode (tablePort (tableWord nbits w)) (tableWord nbits w) with
  | .instr i => some i
  | .illegal _ => none
  | .ignored => none

end Sys2Proof
end

