-- ==== Sys2Proof/Config.lean ====
section
/-! DEFINITION. What is fixed for the machine (00_scope.md R10): the sizes, the parameters a
run takes as arguments, the OPEN parameters and the free values (constants without a body). -/

namespace Sys2Proof

/-- `COUNT_MAX` (R10). -/
abbrev Config.countMax : Nat := 999

/-- `N_DIGITS` (R10): hundreds, tens, units. -/
abbrev Config.nDigits : Nat := 3

/-- `LUT_SIZE` (R10): the segment table's entries, indexed 0 to 9. -/
abbrev Config.lutSize : Nat := 10

/-- The least `WORD_BITS` a run may take (R10: "must be at least 10"). -/
abbrev Config.minWordBits : Nat := 10

/-- `SPI_FRAME_BYTES` (R10): one byte a frame, which is why an `SPI` action holds one `Byte`. -/
abbrev Config.spiFrameBytes : Nat := 1

/-- The parameters that a run takes as arguments (10_state.md R38); the fourth, `SEG_TABLE`, is the contents of the ROM, and
the `OPEN` ones are the constants without a body below. -/
structure Params where
  /-- `HOLD_MS`, the label on every `DELAY` action (41_digit_multiplexer.md R135). -/
  holdMs           : Nat
  /-- `TRANSMIT_FALLIBLE` (41_digit_multiplexer.md R132). -/
  transmitFallible : Bool
  /-- `WORD_BITS`, the width of the counter register (10_state.md R21), at least 10 in every run (log entry 3). -/
  wordBits         : Nat
  deriving DecidableEq, Repr

/-- The values this hardware takes: `HOLD_MS` is 1, `TRANSMIT_FALLIBLE` is false, `WORD_BITS` is 32 (R10, D7, D19, D2). -/
def Config.thisHardware : Params := { holdMs := 1, transmitFallible := false, wordBits := 32 }

/-- The seven segments of a digit, for the OPEN parameter `SEG_BIT_MAP` (40_segment_encoder.md R102). -/
inductive Segment where
  | a | b | c | d | e | f | g
  deriving DecidableEq, Repr, Inhabited

/-- An electrical level of a pin, for the OPEN parameters `SEL_ACTIVE_LEVEL` and `CS_ACTIVE_LEVEL` (00_scope.md R16). -/
inductive Electrical where
  | low
  | high
  deriving DecidableEq, Repr, Inhabited

/-- Which end of a byte goes onto the wire first, for the OPEN parameter `SPI_BIT_ORDER` (20_memory.md R52). -/
inductive BitOrder where
  | msbFirst
  | lsbFirst
  deriving DecidableEq, Repr, Inhabited

/-- `LINE_INIT`, OPEN (R10, U6): the level the platform gives a line at power-up; `none` is unknown (10_state.md R32).
Log entry 7. -/
opaque Config.lineInit : LineId → Option Level

/-- `SEG_BIT_MAP`, OPEN (R102, U5): which segment each of bits 0 to 6 drives. No rule reads it. -/
opaque Config.segBitMap : Fin 7 → Segment

/-- `SEG_POLARITY`, OPEN (R102, U5): whether a 1 lights its segment. No rule reads it. -/
opaque Config.segOneLights : Bool

/-- `SEL_ACTIVE_LEVEL`, OPEN (R16, U7). No rule reads it. -/
opaque Config.selActiveLevel : Electrical

/-- `CS_ACTIVE_LEVEL`, OPEN (R16, U7). No rule reads it. -/
opaque Config.csActiveLevel : Electrical

/-- `SPI_BIT_ORDER`, OPEN (R52, U8). No rule reads it. -/
opaque Config.spiBitOrder : BitOrder

/-- `SPI_MODE`, OPEN (R10, U8). No rule reads it. -/
opaque Config.spiMode : Nat

/-- `SPI_CLOCK`, OPEN (R10, U8). No rule reads it. -/
opaque Config.spiClock : Nat

/-- A free value (U9): which agent goes first when both may step and State's `turns` names none. Log entry 4. -/
opaque Config.freeTurn : Nat → Agent

/-- A free value (U10): the result of `draw_fail()` when State's `draws` names none. Log entry 5. -/
opaque Config.freeDraw : Nat → Bool

/-- A free value: the select line that R130 leaves as a dash in the job of an `XMIT`. No run reads it. Log entry 12. -/
opaque Config.unusedLine : Fin 3 → LineId

/-- A free value: the digit that R130 leaves as a dash in the job of an `XMIT`. No run reads it. Log entry 12. -/
opaque Config.unusedDigit : Fin 3 → Digit

end Sys2Proof
end

