-- ==== Sys2Proof/Machine/State.lean ====
section
/-! DEFINITION. The state of the SEG7 block (10_state.md), its output actions and responses, the reasons a step can stop,
and the state after reset (70_reset_and_hazards.md R260). -/

namespace Sys2Proof.Machine

/-- An output action (10_state.md R31). -/
inductive Action where
  /-- `SET(L, level)`. -/
  | set (line : LineId) (level : Level)
  /-- `TOGGLE(L)`. -/
  | toggle (line : LineId)
  /-- `SPI(C, b)`, one byte (`SPI_FRAME_BYTES` = 1). -/
  | spi (chan : ChannelId) (byte : Byte)
  /-- `DELAY(ms)`, a label that no rule reads (41_digit_multiplexer.md R135). -/
  | delay (ms : Nat)
  deriving DecidableEq, Repr

/-- The status of a response (60_exceptions.md R220). -/
inductive Status where
  | ok
  | illegal
  | notConfigured
  | alreadyConfigured
  | transmitFailed
  deriving DecidableEq, Repr

/-- The response of a BG command, `STATUS` and `RDATA` (R220). -/
structure Response where
  status : Status
  rdata  : Val
  deriving DecidableEq, Repr

/-- The transmit channel binding, the pair `(C, CS)` (10_state.md R27). -/
structure TransmitChannel where
  chan : ChannelId
  cs   : LineId
  deriving DecidableEq, Repr

/-- Which command a job carries out (10_state.md R29). -/
inductive JobKind where
  | render
  | xmit
  deriving DecidableEq, Repr

/-- A job of the render sequencer (10_state.md R29). An entry `none` of `sel` or `digit` is a dash of
41_digit_multiplexer.md R130: the entries an `XMIT` does not use (log entry 12). -/
structure Job where
  kind   : JobKind
  chan   : ChannelId
  cs     : LineId
  sel    : PerDigit (Option LineId)
  digit  : PerDigit (Option Digit)
  slot   : Fin 3
  phase  : Fin 6
  failed : Bool
  deriving DecidableEq, Repr

/-- `SEQ`, the render sequencer (10_state.md R29). -/
inductive Seq where
  | idle
  | busy (job : Job)
  deriving DecidableEq, Repr

/-- The block's one memory, the segment ROM (20_memory.md R50, R51), as a list of (index, byte) cells in canonical form
(`Memory.wf`): an index that is not listed reads as the default table's entry (40_segment_encoder.md R101; log entry 2). -/
abbrev Memory := List Host.Cell

/-- The state of the block (10_state.md R20), the record of its responses, the parameters of the run, and below them the
model's own fields for what the spec leaves to the host, the platform and the draws. -/
structure State where
  /-- `COUNTER` (R21), an unsigned integer of the run's `WORD_BITS` bits (00_scope.md R12; log entry 3). -/
  counter   : Nat
  /-- `LED_CFG` (R23). -/
  ledCfg    : Option LineId
  /-- `BTN_CFG` (R25). -/
  btnCfg    : Option PinId
  /-- `DISP_CFG` (R26). -/
  dispCfg   : Option (PerDigit LineId)
  /-- `CHAN_CFG` (R27). -/
  chanCfg   : Option TransmitChannel
  /-- `SEQ` (R29). -/
  seq       : Seq
  /-- `TRACE`, oldest action first (R31). -/
  trace     : List Action
  /-- A BG command was issued and its response has not come (70_reset_and_hazards.md R262, R273; log entry 10). -/
  pending   : Bool
  /-- The responses returned so far, oldest first (70_reset_and_hazards.md R275; log entry 11). -/
  responses : List Response
  /-- The segment table ROM, `SEG_TABLE` (20_memory.md R50). No step writes it. -/
  segRom    : Memory
  /-- `HOLD_MS`, `TRANSMIT_FALLIBLE` and `WORD_BITS`, fixed for the run (10_state.md R38; log entry 1). No step writes them. -/
  params    : Params
  /-- The model's own: words the host has still to send on the BG port, oldest first (log entry 8). -/
  bgQueue   : List CmdWord
  /-- The model's own: events still to be delivered on the IRQ port, oldest first (log entry 8). -/
  irqQueue  : List CmdWord
  /-- The model's own: who goes first at each step at which both agents may step (60_exceptions.md R228; log entry 4). -/
  turns     : List Agent
  /-- The model's own: the results of `draw_fail()`, oldest first (41_digit_multiplexer.md R132; log entry 5). -/
  draws     : List Bool
  /-- The model's own: how many free values were read since reset (log entry 6). -/
  freeIx    : Nat
  deriving DecidableEq, Repr

/-- Why the machine stops. The block itself never does (60_exceptions.md R225), and no step raises a fault. -/
inductive Fault where
  /-- A status code 5 to 15 was seen in a response (93_implementation_defined.md U13: a model that sees one must fault).
  Raised by `readResponse`, which reads a response word, and by nothing else. Safe: the block never returns such a code. -/
  | reservedStatus (code : BitVec 4)
  deriving DecidableEq, Repr

/-- Why an instruction has no meaning. -/
inductive Refusal where
  /-- Raised by an arm of `exec` whose instruction has no meaning yet; no arm does. Safe. -/
  | notModelled (mnemonic : String)
  deriving DecidableEq, Repr

/-- The state right after reset (70_reset_and_hazards.md R260, R262). The segment ROM lists nothing, so it reads as the
default table (PRESUMED, log entry 2); the parameters are this hardware's (log entry 1); the model's own fields are empty
(DESIGN CHOICE, log entries 4, 5, 6 and 8). -/
def State.reset : State where
  counter   := 0
  ledCfg    := none
  btnCfg    := none
  dispCfg   := none
  chanCfg   := none
  seq       := .idle
  trace     := []
  pending   := false
  responses := []
  segRom    := []
  params    := Config.thisHardware
  bgQueue   := []
  irqQueue  := []
  turns     := []
  draws     := []
  freeIx    := 0

end Sys2Proof.Machine
end

