-- ==== Sys2Proof/Machine/Ops.lean ====
section
/-! DEFINITION. The operations the meanings share: the ROM read, output actions, responses (the block's only error report:
it takes no exception), write-once binding, starting and ending a job, free draws and turns, and fetching a word from a port. -/

namespace Sys2Proof.Machine

/-! ### The segment ROM (20_memory.md R50, R56) -/

/-- The default `SEG_TABLE` of 40_segment_encoder.md R101. PRESUMED (log entry 2): the spec itself says that the ten
bytes come from general knowledge and not from its source. -/
def defaultSegTable (d : Digit) : Byte :=
  match d with
  | 0 => 0x3F#8
  | 1 => 0x06#8
  | 2 => 0x5B#8
  | 3 => 0x4F#8
  | 4 => 0x66#8
  | 5 => 0x6D#8
  | 6 => 0x7D#8
  | 7 => 0x07#8
  | 8 => 0x7F#8
  | 9 => 0x6F#8

/-- The indexes of the cells rise strictly. -/
def Memory.rising (m : Memory) : Bool :=
  match m with
  | [] => true
  | [_] => true
  | c :: d :: rest => decide (c.1 < d.1) && Memory.rising (d :: rest)

/-- A cell lies in the table and says something an unlisted index would not. -/
def Memory.cellOk (c : Host.Cell) : Bool :=
  if h : c.1 < Config.lutSize then c.2 != defaultSegTable ⟨c.1, h⟩ else false

/-- The canonical form of the ROM: indexes strictly rising, all below `LUT_SIZE`, no cell equal to what an unlisted index
reads as. -/
def Memory.wf (m : Memory) : Bool := Memory.rising m && m.all Memory.cellOk

/-- `MemRead(i, 1)` (00_scope.md R13): the byte at index `i`; an index outside the table cannot be formed (R56). -/
def Memory.read (m : Memory) (i : Digit) : Byte := (List.lookup i.val m).getD (defaultSegTable i)

/-- The ROM whose contents are a given table: how a run takes `SEG_TABLE` as its argument (40_segment_encoder.md R101). -/
def Memory.ofTable (t : Digit → Byte) : Memory :=
  (List.finRange 10).filterMap fun d => if t d = defaultSegTable d then none else some (d.val, t d)

/-! ### Output actions and responses (00_scope.md R14) -/

/-- `emit(a)`: appends an output action to `TRACE`. -/
def State.emit (s : State) (a : Action) : State := { s with trace := s.trace ++ [a] }

/-- `respond(status, data)`: ends the current command and returns its response. -/
def State.respond (s : State) (st : Status) (data : Val) : State :=
  { s with pending := false, responses := s.responses ++ [⟨st, data⟩] }

/-- `raise S`: `respond(S, 0)` with no state change and no `emit`. The block's only report of an error: it saves nothing,
changes no mode and goes to no handler (60_exceptions.md R225). -/
def State.raise (s : State) (st : Status) : State := s.respond st 0

/-- A configuration command (43_configuration.md R190 to R194): with its register `cur` unset, the state `bound`, in which
the register is set, and `OK`; with it set, nothing but `ALREADY_CONFIGURED`. -/
def State.bindOnce {α : Type} (s : State) (cur : Option α) (bound : State) : State :=
  match cur with
  | none => bound.respond .ok 0
  | some _ => s.raise .alreadyConfigured

/-! ### The sequencer's job (10_state.md R29) -/

/-- `SEQ <- Busy{job}`: no action and no response yet (41_digit_multiplexer.md R124, R130). -/
def State.startJob (s : State) (j : Job) : State := { s with seq := .busy j, pending := true }

/-- `SEQ <- Idle; respond(failed ? TRANSMIT_FAILED : OK, 0)` (41_digit_multiplexer.md R126). -/
def State.finishJob (s : State) (j : Job) : State :=
  State.respond { s with seq := .idle } (if j.failed then .transmitFailed else .ok) 0

/-- `SEQ` goes on with a job. -/
def State.continueJob (s : State) (j : Job) : State := { s with seq := .busy j }

/-! ### Free choices -/

/-- `draw_fail()` (41_digit_multiplexer.md R132, U10): the next of State's `draws`, or a free value (log entry 5). -/
def State.takeDraw (s : State) : Bool × State :=
  match s.draws with
  | b :: rest => (b, { s with draws := rest })
  | [] => (Config.freeDraw s.freeIx, { s with freeIx := s.freeIx + 1 })

/-- Who goes first when both agents may step (60_exceptions.md R228, U9): the next of State's `turns`, or a free value
(log entry 4). -/
def State.takeTurn (s : State) : Agent × State :=
  match s.turns with
  | a :: rest => (a, { s with turns := rest })
  | [] => (Config.freeTurn s.freeIx, { s with freeIx := s.freeIx + 1 })

/-! ### The two ports (30_encoding.md R71) -/

/-- BG has a step: the next sequencer step of a job (10_state.md R37), or a word to issue while `SEQ` is `Idle` and no
response is pending (70_reset_and_hazards.md R273). -/
def State.bgReady (s : State) : Bool :=
  match s.seq with
  | .busy _ => true
  | .idle => !s.pending && !s.bgQueue.isEmpty

/-- IRQ has a step: an event to deliver, at any step (42_counter_event.md R166). -/
def State.irqReady (s : State) : Bool := !s.irqQueue.isEmpty

/-- Places a word so that the very next step fetches it: first on its port's queue, its agent's turn to go first, and, for
a BG word, a sequencer that is `Idle` with no response pending (log entry 8). -/
def State.placeWord (s : State) (w : CmdWord) : State :=
  match tablePort w with
  | .irq => { s with irqQueue := w :: s.irqQueue, turns := if s.bgReady then .irq :: s.turns else s.turns }
  | .bg =>
    { s with seq := .idle, pending := false, bgQueue := w :: s.bgQueue,
             turns := if s.irqReady then .bg :: s.turns else s.turns }

end Sys2Proof.Machine
end

