-- ==== Sys2Proof/Machine/Configuration.lean ====
section
/-! DEFINITION. The configuration commands (43_configuration.md): four write-once bindings. -/

namespace Sys2Proof.Machine

/-- `CFG_LED LINE` (R190). -/
def execCfgLed (line : LineId) (s : State) : Host.Outcome State Fault Refusal :=
  .next (s.bindOnce s.ledCfg { s with ledCfg := some line })

/-- `CFG_BTN PIN` (R191). -/
def execCfgBtn (pin : PinId) (s : State) : Host.Outcome State Fault Refusal :=
  .next (s.bindOnce s.btnCfg { s with btnCfg := some pin })

/-- `CFG_DISP H, T, U` (R192). -/
def execCfgDisp (h t u : LineId) (s : State) : Host.Outcome State Fault Refusal :=
  .next (s.bindOnce s.dispCfg { s with dispCfg := some ⟨h, t, u⟩ })

/-- `CFG_CHAN CH, CS` (R193). -/
def execCfgChan (ch : ChannelId) (cs : LineId) (s : State) : Host.Outcome State Fault Refusal :=
  .next (s.bindOnce s.chanCfg { s with chanCfg := some ⟨ch, cs⟩ })

end Sys2Proof.Machine
end

