-- ==== Sys2Proof/Machine/Operands.lean ====
section
/-! DEFINITION. What the commands compute from their operands: the encode function (40_segment_encoder.md R100), BCD
decomposition (41_digit_multiplexer.md R120), and the entries of a job. -/

namespace Sys2Proof.Machine

/-- The entry of a triple at a slot: 0 is hundreds, 1 tens, 2 units (41_digit_multiplexer.md R123). -/
def PerDigit.get {α : Type} (d : PerDigit α) (p : Fin 3) : α :=
  match p with
  | 0 => d.hundreds
  | 1 => d.tens
  | 2 => d.units

/-- A triple with every entry present. -/
def PerDigit.present {α : Type} (d : PerDigit α) : PerDigit (Option α) :=
  { hundreds := some d.hundreds, tens := some d.tens, units := some d.units }

/-- `d mod 10`, the index of the table that a value selects (R100). -/
def lastDigit (v : Val) : Digit := Fin.ofNat 10 v.toNat

/-- `SegEncode(d) = MemRead(d mod 10, 1)` (R100). -/
def segEncode (rom : Memory) (d : Val) : Byte := rom.read (lastDigit d)

/-- `Decompose(v)` (R120): the hundreds, tens and units digits by floor division and remainder. -/
def decompose (v : Val) : PerDigit Digit where
  hundreds := Fin.ofNat 10 (v.toNat / 100)
  tens     := Fin.ofNat 10 (v.toNat / 10)
  units    := Fin.ofNat 10 v.toNat

/-- A digit as the 32-bit value the transmit step encodes (30_encoding.md R73: zero-extended). -/
def digitVal (d : Digit) : Val := BitVec.ofNat 32 d.val

/-- `j.sel[j.slot]`; a dash of R130, which no run reads, is a free value (log entry 12). -/
def Job.line (j : Job) : LineId := (PerDigit.get j.sel j.slot).getD (Config.unusedLine j.slot)

/-- `j.digit[j.slot]`; a dash of R130, which no run reads, is a free value (log entry 12). -/
def Job.digitNow (j : Job) : Digit := (PerDigit.get j.digit j.slot).getD (Config.unusedDigit j.slot)

/-- The counter after one qualifying event (42_counter_event.md R161 steps 2 and 3): the sum is exact, so the wrap is
decided before anything is stored, at every `WORD_BITS` (R162, R172). -/
def nextCount (c : Nat) : Nat := if c + 1 > Config.countMax then 0 else c + 1

/-- `zext_32(COUNTER)` (42_counter_event.md R170); a counter of more than 32 bits, which no run reaches, gives its low 32
(log entry 3). -/
def counterVal (c : Nat) : Val := BitVec.ofNat 32 c

/-- The pin of an event is the configured button pin (42_counter_event.md R164, R165). -/
def State.qualifies (s : State) (pin : PinId) : Bool := s.btnCfg == some pin

end Sys2Proof.Machine
end

