-- ==== Sys2Proof/Machine/Counter.lean ====
section
/-! DEFINITION. The counter register and the Event Handler (42_counter_event.md). -/

namespace Sys2Proof.Machine

/-- Step 1 of the Event Handler (R161): toggle the LED; with `LED_CFG` unset, nothing (R165). -/
def State.toggleLed (s : State) : State :=
  match s.ledCfg with
  | some l => s.emit (.toggle l)
  | none => s

/-- `EVENT PIN`, one atomic step of IRQ (R161): entry saves nothing and return restores nothing (60_exceptions.md R229,
R230); it answers no response. -/
def execEvent (pin : PinId) (s : State) : Host.Outcome State Fault Refusal :=
  if s.qualifies pin then .next { s.toggleLed with counter := nextCount s.counter } else .next s

/-- `RDCNT` (R170): responds `OK` with the counter, zero-extended to 32 bits. -/
def execRdcnt (s : State) : Host.Outcome State Fault Refusal :=
  .next (s.respond .ok (counterVal s.counter))

end Sys2Proof.Machine
end

