-- ==== Sys2Proof/Machine/Encoder.lean ====
section
/-! DEFINITION. The Segment Encoder's command (40_segment_encoder.md). -/

namespace Sys2Proof.Machine

/-- `ENC VAL` (R103): responds `OK` with the pattern, zero-extended to 32 bits. -/
def execEnc (val : Val) (s : State) : Host.Outcome State Fault Refusal :=
  .next (s.respond .ok ((segEncode s.segRom val).setWidth 32))

end Sys2Proof.Machine
end

