-- ==== Sys2Proof/Machine/Multiplexer.lean ====
section
/-! DEFINITION. The Digit Multiplexer and the transmit primitive (41_digit_multiplexer.md): the issue steps of `RENDER` and
`XMIT`, and the sequencer step that both run on. -/

namespace Sys2Proof.Machine

/-- The job of a `RENDER` (R124). -/
def renderJob (d : PerDigit LineId) (c : TransmitChannel) (val : Val) : Job where
  kind   := .render
  chan   := c.chan
  cs     := c.cs
  sel    := PerDigit.present d
  digit  := PerDigit.present (decompose val)
  slot   := 0
  phase  := 0
  failed := false

/-- The job of an `XMIT` (R130); it starts at phase 1 of slot 0. -/
def xmitJob (c : TransmitChannel) (val : Val) : Job where
  kind   := .xmit
  chan   := c.chan
  cs     := c.cs
  sel    := ⟨none, none, none⟩
  digit  := ⟨some (lastDigit val), none, none⟩
  slot   := 0
  phase  := 1
  failed := false

/-- `RENDER VAL`, the issue step (R124, R129). -/
def execRender (val : Val) (s : State) : Host.Outcome State Fault Refusal :=
  match s.dispCfg, s.chanCfg with
  | some d, some c => .next (s.startJob (renderJob d c val))
  | _, _ => .next (s.raise .notConfigured)

/-- `XMIT VAL`, the issue step (R130). -/
def execXmit (val : Val) (s : State) : Host.Outcome State Fault Refusal :=
  match s.chanCfg with
  | some c => .next (s.startJob (xmitJob c val))
  | none => .next (s.raise .notConfigured)

/-- The one action a sequencer step emits, by its phase (R125, R126); the transmit step encodes the digit. -/
def seqAction (ps : Params) (rom : Memory) (j : Job) : Action :=
  match j.phase with
  | 0 => .set j.line .asserted
  | 1 => .set j.cs .asserted
  | 2 => .spi j.chan (segEncode rom (digitVal j.digitNow))
  | 3 => .set j.cs .deasserted
  | 4 => .delay ps.holdMs
  | 5 => .set j.line .deasserted

/-- `if TRANSMIT_FALLIBLE and draw_fail(): j.failed <- true`, at phase 2 only (R126, R132). -/
def seqDraw (j : Job) (s : State) : Job × State :=
  if j.phase = 2 ∧ s.params.transmitFallible = true then
    ({ j with failed := j.failed || s.takeDraw.1 }, s.takeDraw.2)
  else (j, s)

/-- The advance of a sequencer step (R126). -/
def seqAdvance (j : Job) (s : State) : State :=
  if j.kind = .xmit ∧ j.phase = 3 then s.finishJob j
  else if j.phase = 3 ∧ j.failed = true then s.continueJob { j with phase := 5 }
  else if j.phase = 5 ∧ (j.failed = true ∨ j.slot = 2) then s.finishJob j
  else if j.phase = 5 then s.continueJob { j with slot := j.slot + 1, phase := 0 }
  else s.continueJob { j with phase := j.phase + 1 }

/-- `seq_step()` on the job `j` (R126): emits one action, draws where the transmit may fail, and advances. -/
def seqStep (j : Job) (s : State) : State :=
  let drawn := seqDraw j (s.emit (seqAction s.params s.segRom j))
  seqAdvance drawn.1 drawn.2

end Sys2Proof.Machine
end

