-- ==== Sys2Proof/Machine/Dispatch.lean ====
section
/-! DEFINITION. One arm per instruction: a direct call of its meaning. -/

namespace Sys2Proof.Machine

def exec (i : Instr) (s : State) : Host.Outcome State Fault Refusal :=
  match i with
  | .cfgLed line => Sys2Proof.Machine.execCfgLed line s
  | .cfgBtn pin => Sys2Proof.Machine.execCfgBtn pin s
  | .cfgDisp h t u => Sys2Proof.Machine.execCfgDisp h t u s
  | .cfgChan ch cs => Sys2Proof.Machine.execCfgChan ch cs s
  | .enc val => Sys2Proof.Machine.execEnc val s
  | .xmit val => Sys2Proof.Machine.execXmit val s
  | .render val => Sys2Proof.Machine.execRender val s
  | .rdcnt => Sys2Proof.Machine.execRdcnt s
  | .event pin => Sys2Proof.Machine.execEvent pin s

end Sys2Proof.Machine
end

