-- ==== Sys2Proof/Machine/Agents.lean ====
section
/-! DEFINITION. The steps of the two agents, and the choice between them (20_memory.md R58; 60_exceptions.md R228). -/

namespace Sys2Proof.Machine

/-- BG issues a word (30_encoding.md R75): a command runs its issue step; an illegal word gets `ILLEGAL` and nothing else
(60_exceptions.md R221). Decode never answers `ignored` on this port. -/
def issueWord (w : CmdWord) (s : State) : Host.Outcome State Fault Refusal :=
  match decode .bg w with
  | .instr i => exec i s
  | .illegal _ => .next (s.raise .illegal)
  | .ignored => .next s

/-- IRQ delivers a word (30_encoding.md R75): an `EVENT` runs; any other word is ignored, with no response (R78). Decode
never answers `illegal` on this port. -/
def deliverWord (w : CmdWord) (s : State) : Host.Outcome State Fault Refusal :=
  match decode .irq w with
  | .instr i => exec i s
  | .illegal _ => .next s
  | .ignored => .next s

/-- The step of BG: the next sequencer step while `SEQ` is `Busy` (10_state.md R37), else the host's next word. -/
def bgStep (s : State) : Host.Outcome State Fault Refusal :=
  match s.seq with
  | .busy j => .next (seqStep j s)
  | .idle =>
    match s.bgQueue with
    | [] => .next s
    | w :: rest => issueWord w { s with bgQueue := rest }

/-- The step of IRQ: the next event to deliver (42_counter_event.md R160). -/
def irqStep (s : State) : Host.Outcome State Fault Refusal :=
  match s.irqQueue with
  | [] => .next s
  | w :: rest => deliverWord w { s with irqQueue := rest }

/-- The step of an agent. -/
def agentStep (a : Agent) (s : State) : Host.Outcome State Fault Refusal :=
  match a with
  | .bg => bgStep s
  | .irq => irqStep s

/-- Who steps next, and the state with that choice made: the one agent that may, and where both may, either
(60_exceptions.md R228); none where neither may. -/
def nextAgent (s : State) : Option (Agent × State) :=
  if s.bgReady then
    if s.irqReady then some s.takeTurn else some (.bg, s)
  else
    if s.irqReady then some (.irq, s) else none

/-- One step of the machine: one step of the agent that goes next; where neither agent has a step, the block waits for
its host and nothing changes (70_reset_and_hazards.md R275; log entry 9). -/
def machineStep (s : State) : Host.Outcome State Fault Refusal :=
  match nextAgent s with
  | none => .next s
  | some (a, s1) => agentStep a s1

end Sys2Proof.Machine
end

