-- ==== Sys2Proof/Machine/Step.lean ====
section
/-! DEFINITION. The step of the machine, and the placing of a word where the next step fetches it. -/

namespace Sys2Proof.Machine

/-- One step (20_memory.md R58). -/
def step (s : State) : Host.Outcome State Fault Refusal := machineStep s

/-- The state with a word of the opcode table placed where the next step fetches it: the host sends it next (log entry 8). -/
def State.withFetchWord (s : State) (nbits w : Nat) : State := s.placeWord (tableWord nbits w)

end Sys2Proof.Machine
end

