-- ==== Sys2Proof/Machine/Assembler.lean ====
section
/-! DEFINITION. The assembler syntax (30_encoding.md R81): one command a line, to its port and word. -/

namespace Sys2Proof.Machine

/-- Why a line is refused. -/
inductive AsmError where
  /-- The first word of the line is no mnemonic of R81. -/
  | unknownMnemonic
  /-- The operands are not of the form R81 gives the command. -/
  | badOperands
  /-- An operand does not fit its field: refused, not truncated. -/
  | doesNotFit
  deriving DecidableEq, Repr

/-- A blank between words (log entry 17). -/
def isBlank (c : Char) : Bool := c == ' ' || c == '\t'

/-- A text without the blanks at its two ends. -/
def trimBlanks (cs : List Char) : List Char := ((cs.dropWhile isBlank).reverse.dropWhile isBlank).reverse

/-- The pieces of a text between occurrences of a separator. -/
def splitAtChar (sep : Char) (cs : List Char) : List (List Char) :=
  match cs with
  | [] => [[]]
  | c :: rest =>
    if c == sep then [] :: splitAtChar sep rest
    else
      match splitAtChar sep rest with
      | [] => [[c]]
      | p :: ps => (c :: p) :: ps

/-- The value of one digit in a base up to 16, hexadecimal digits in either case (log entry 17). -/
def charDigit (base : Nat) (c : Char) : Option Nat :=
  let n := c.toNat
  let v := if 48 ≤ n ∧ n ≤ 57 then n - 48
    else if 97 ≤ n ∧ n ≤ 102 then n - 87
    else if 65 ≤ n ∧ n ≤ 70 then n - 55
    else 16
  if v < base then some v else none

/-- The number a text of digits writes in a base, from a start value. -/
def digitsFrom (base : Nat) (acc : Nat) (cs : List Char) : Option Nat :=
  match cs with
  | [] => some acc
  | c :: rest => (charDigit base c).bind fun v => digitsFrom base (acc * base + v) rest

/-- A decimal number, at least one digit. -/
def parseDecimal (cs : List Char) : Option Nat := if cs.isEmpty then none else digitsFrom 10 0 cs

/-- A number, decimal or hexadecimal with the prefix 0x (R81). -/
def parseNumber (cs : List Char) : Option Nat :=
  match cs with
  | '0' :: 'x' :: rest => if rest.isEmpty then none else digitsFrom 16 0 rest
  | other => parseDecimal other

/-- A LineId, `P<port>.<pin>`, both numbers decimal (R81). -/
def parseLineId (cs : List Char) : Option SrcLine :=
  match cs with
  | 'P' :: rest =>
    match splitAtChar '.' rest with
    | [port, pin] => (parseDecimal port).bind fun p => (parseDecimal pin).map fun n => ⟨p, n⟩
    | _ => none
  | _ => none

/-- The operands of a line: what stands between its commas. -/
def operandsOf (cs : List Char) : List (List Char) :=
  if (trimBlanks cs).isEmpty then [] else (splitAtChar ',' cs).map trimBlanks

/-- A command with one number as its operand. -/
def oneNumber (mk : Nat → SrcInstr) (ops : List (List Char)) : Except AsmError SrcInstr :=
  match ops with
  | [a] => match parseNumber a with
    | some n => .ok (mk n)
    | none => .error .badOperands
  | _ => .error .badOperands

/-- `CFG_LED P<p>.<n>`. -/
def parseCfgLed (ops : List (List Char)) : Except AsmError SrcInstr :=
  match ops.map parseLineId with
  | [some l] => .ok (.cfgLed l)
  | _ => .error .badOperands

/-- `CFG_DISP P<ph>.<nh>, P<pt>.<nt>, P<pu>.<nu>`. -/
def parseCfgDisp (ops : List (List Char)) : Except AsmError SrcInstr :=
  match ops.map parseLineId with
  | [some h, some t, some u] => .ok (.cfgDisp h t u)
  | _ => .error .badOperands

/-- `CFG_CHAN <c>, P<p>.<n>`. -/
def parseCfgChan (ops : List (List Char)) : Except AsmError SrcInstr :=
  match ops with
  | [a, b] => match parseNumber a, parseLineId b with
    | some c, some l => .ok (.cfgChan c l)
    | _, _ => .error .badOperands
  | _ => .error .badOperands

/-- `RDCNT`, no operand. -/
def parseRdcnt (ops : List (List Char)) : Except AsmError SrcInstr :=
  match ops with
  | [] => .ok .rdcnt
  | _ => .error .badOperands

/-- The command a mnemonic and its operands write (R81). -/
def parseCommand (mnemonic : List Char) (ops : List (List Char)) : Except AsmError SrcInstr :=
  if mnemonic = "CFG_LED".toList then parseCfgLed ops
  else if mnemonic = "CFG_BTN".toList then oneNumber .cfgBtn ops
  else if mnemonic = "CFG_DISP".toList then parseCfgDisp ops
  else if mnemonic = "CFG_CHAN".toList then parseCfgChan ops
  else if mnemonic = "ENC".toList then oneNumber .enc ops
  else if mnemonic = "XMIT".toList then oneNumber .xmit ops
  else if mnemonic = "RENDER".toList then oneNumber .render ops
  else if mnemonic = "RDCNT".toList then parseRdcnt ops
  else if mnemonic = "EVENT".toList then oneNumber .event ops
  else .error .unknownMnemonic

/-- A written LineId as its fields; only for one whose numbers fit. -/
def SrcLine.toLineId (l : SrcLine) : LineId := { port := BitVec.ofNat 4 l.port, pin := BitVec.ofNat 4 l.pin }

/-- A written command as an instruction, refused where an operand does not fit its field (R81, D14). -/
def SrcInstr.toInstr (i : SrcInstr) : Option Instr :=
  if i.wellFormed then
    match i with
    | .cfgLed l => some (.cfgLed (SrcLine.toLineId l))
    | .cfgBtn n => some (.cfgBtn (BitVec.ofNat 4 n))
    | .cfgDisp h t u => some (.cfgDisp (SrcLine.toLineId h) (SrcLine.toLineId t) (SrcLine.toLineId u))
    | .cfgChan c l => some (.cfgChan (BitVec.ofNat 4 c) (SrcLine.toLineId l))
    | .enc v => some (.enc (BitVec.ofNat 32 v))
    | .xmit v => some (.xmit (BitVec.ofNat 32 v))
    | .render v => some (.render (BitVec.ofNat 32 v))
    | .rdcnt => some .rdcnt
    | .event n => some (.event (BitVec.ofNat 4 n))
  else none

/-- One line of assembler text as a written command; none for a line that holds a comment or nothing (R81). -/
def parseLine (line : String) : Except AsmError (Option SrcInstr) :=
  let text := trimBlanks (line.toList.takeWhile (· != ';'))
  let mnemonic := text.takeWhile (fun c => !isBlank c)
  let rest := text.dropWhile (fun c => !isBlank c)
  if text.isEmpty then .ok none
  else match parseCommand mnemonic (operandsOf rest) with
    | .ok i => .ok (some i)
    | .error e => .error e

/-- One line of assembler text as the port and the word it stands for (R81). -/
def assemble (line : String) : Except AsmError (Option (Agent × CmdWord)) :=
  match parseLine line with
  | .error e => .error e
  | .ok none => .ok none
  | .ok (some src) =>
    match SrcInstr.toInstr src with
    | some i => .ok (some (i.port, encode i))
    | none => .error .doesNotFit

end Sys2Proof.Machine
end

