-- ==== Sys2Proof/Machine/Flags.lean ====
section
/-! DEFINITION. The block has no flag register and no condition codes (10_state.md R34). What stands in their place is the
response word of a command: its status codes and its packing (60_exceptions.md R220). -/

namespace Sys2Proof.Machine

/-- The 4-bit code of a status (R220). -/
def Status.code (st : Status) : BitVec 4 :=
  match st with
  | .ok => 0#4
  | .illegal => 1#4
  | .notConfigured => 2#4
  | .alreadyConfigured => 3#4
  | .transmitFailed => 4#4

/-- The status of a 4-bit code; codes 5 to 15 are reserved (R220). -/
def Status.ofCode (c : BitVec 4) : Option Status :=
  if c = 0#4 then some .ok
  else if c = 1#4 then some .illegal
  else if c = 2#4 then some .notConfigured
  else if c = 3#4 then some .alreadyConfigured
  else if c = 4#4 then some .transmitFailed
  else none

/-- The response as its 36 bits, `STATUS` above `RDATA` (R220). -/
def Response.word (r : Response) : BitVec 36 := r.status.code ++ r.rdata

/-- The response that 36 bits hold; a reserved status code faults (93_implementation_defined.md U13; log entry 15). -/
def readResponse (w : BitVec 36) : Host.Outcome Response Fault Refusal :=
  match Status.ofCode (w.extractLsb' 32 4) with
  | some st => .next ⟨st, w.extractLsb' 0 32⟩
  | none => .fault (.reservedStatus (w.extractLsb' 32 4))

end Sys2Proof.Machine
end

