-- ==== Sys2Proof/Machine/Lines.lean ====
section
/-! DEFINITION. The logical level of an output line, computed from the trace and `LINE_INIT` (10_state.md R32, R33). -/

namespace Sys2Proof.Machine

/-- The other level. -/
def Level.other (v : Level) : Level :=
  match v with
  | .asserted => .deasserted
  | .deasserted => .asserted

/-- What one action does to the level of line `l`; `none` is unknown (R32). -/
def levelStep (l : LineId) (v : Option Level) (a : Action) : Option Level :=
  match a with
  | .set k lv => if k = l then some lv else v
  | .toggle k => if k = l then v.map Level.other else v
  | .spi _ _ => v
  | .delay _ => v

/-- The level of line `l` after a list of actions, from a start level (R32). -/
def levelFrom (start : Option Level) (l : LineId) (actions : List Action) : Option Level :=
  actions.foldl (levelStep l) start

/-- The level of line `l` in a state (R32): from `LINE_INIT(l)`, through the whole trace. -/
def State.lineLevel (s : State) (l : LineId) : Option Level := levelFrom (Config.lineInit l) l s.trace

end Sys2Proof.Machine
end

