-- ==== Sys2Proof/Safety.lean ====
section
/-! DEFINITION. The terms claims are stated in: the invariant of the machine, the named launch premises of
70_reset_and_hazards.md R276, complete runs and their observation (R275), and the action sequences of
41_digit_multiplexer.md R125, R127 and R131. -/

namespace Sys2Proof.Machine

/-! ### The invariant -/

/-- What holds of a job in progress: its channel is the bound one; it has failed only in a fallible run, and then it
stands at one of its closing actions (R132); a `RENDER` has the bound select lines and three digits (R124); an `XMIT` is
inside its frame, in slot 0, with one digit (R130). -/
def JobOk (s : State) (j : Job) : Prop :=
  s.chanCfg = some ⟨j.chan, j.cs⟩ ∧
  (j.failed = true → s.params.transmitFallible = true ∧ (j.phase = 3 ∨ j.phase = 5)) ∧
  match j.kind with
  | .render =>
    (∃ d : PerDigit LineId, s.dispCfg = some d ∧ j.sel = PerDigit.present d) ∧
      ∃ g : PerDigit Digit, j.digit = PerDigit.present g
  | .xmit =>
    j.slot = 0 ∧ (j.phase = 1 ∨ j.phase = 2 ∨ j.phase = 3) ∧ j.sel = ⟨none, none, none⟩ ∧
      ∃ g : Digit, j.digit = ⟨some g, none, none⟩

/-- The arguments of the run are ones a run may take: the ROM is some table in its canonical form (40_segment_encoder.md
R101), and `WORD_BITS` is at least 10 (00_scope.md R10, D2). -/
abbrev LegalArguments (s : State) : Prop :=
  Memory.wf s.segRom = true ∧ Config.minWordBits ≤ s.params.wordBits

/-- The invariant of the machine: the counter is in 0 to 999 (10_state.md R22), the arguments of the run are legal, and a
response is pending exactly while a job, itself in order, is in progress (60_exceptions.md R220). -/
def State.Inv (s : State) : Prop :=
  s.counter ≤ Config.countMax ∧ LegalArguments s ∧
  match s.seq with
  | .idle => s.pending = false
  | .busy j => s.pending = true ∧ JobOk s j

/-! ### Complete runs (R275) -/

/-- Nothing is left to do: `SEQ` is `Idle`, every issued word has had its response, and the host has no further word on
either port. -/
def State.complete (s : State) : Prop :=
  s.seq = .idle ∧ s.pending = false ∧ s.bgQueue = [] ∧ s.irqQueue = []

/-- The observation of a complete run: the responses in order, `TRACE`, `COUNTER`, and the four bindings (R275). -/
structure Observation where
  responses : List Response
  trace     : List Action
  counter   : Nat
  ledCfg    : Option LineId
  btnCfg    : Option PinId
  dispCfg   : Option (PerDigit LineId)
  chanCfg   : Option TransmitChannel
  deriving DecidableEq, Repr

/-- What is observed of a state. -/
def State.observe (s : State) : Observation where
  responses := s.responses
  trace     := s.trace
  counter   := s.counter
  ledCfg    := s.ledCfg
  btnCfg    := s.btnCfg
  dispCfg   := s.dispCfg
  chanCfg   := s.chanCfg

/-- `k` steps of the machine. -/
abbrev runSteps (k : Nat) (s : State) : Host.Outcome State Fault Refusal := Sys2Proof.core.run k s

/-! ### Launch premises (R276) -/

/-- `ResetState`: the run starts in the state of 70_reset_and_hazards.md R260, with no job and no pending response (R262). The
arguments of the run (its table and parameters, 10_state.md R38), the words its host will send and the free choices are the
run's own: they are premises of their own below, or free (log entry 21). -/
def ResetState (s : State) : Prop :=
  s.counter = 0 ∧ s.ledCfg = none ∧ s.btnCfg = none ∧ s.dispCfg = none ∧ s.chanCfg = none ∧ s.seq = .idle ∧
    s.trace = [] ∧ s.pending = false ∧ s.responses = []

/-- `Infallible`: `TRANSMIT_FALLIBLE` is false. -/
def Infallible (s : State) : Prop := s.params.transmitFallible = false

/-- `DefaultTable`: every entry of the segment table is the default one (40_segment_encoder.md R101). -/
def DefaultTable (s : State) : Prop := ∀ d : Digit, s.segRom.read d = defaultSegTable d

/-- A wiring: what the four configuration commands bind. -/
structure Wiring where
  disp : PerDigit LineId
  chan : TransmitChannel
  led  : LineId
  btn  : PinId
  deriving DecidableEq, Repr

/-- `DistinctLines`: `H`, `T`, `U`, `CS` and the LED line are pairwise distinct. -/
def Wiring.distinctLines (w : Wiring) : Prop :=
  [w.disp.hundreds, w.disp.tens, w.disp.units, w.chan.cs, w.led].Nodup

/-- `LedKnown`: `LINE_INIT` of the LED line is not unknown. -/
def Wiring.ledKnown (w : Wiring) : Prop := Config.lineInit w.led ≠ none

/-- Step 1 of R263: the platform sets the select lines and the chip-select line to `DEASSERTED`. -/
def Wiring.platformReady (w : Wiring) : Prop :=
  ∀ l ∈ [w.disp.hundreds, w.disp.tens, w.disp.units, w.chan.cs], Config.lineInit l = some .deasserted

/-- Steps 2 and 3 of R263: `CFG_DISP` and `CFG_CHAN` in either order, then `CFG_LED`, then `CFG_BTN`. -/
def Wiring.bootWords (w : Wiring) (chanFirst : Bool) : List CmdWord :=
  let disp := encode (.cfgDisp w.disp.hundreds w.disp.tens w.disp.units)
  let chan := encode (.cfgChan w.chan.chan w.chan.cs)
  (if chanFirst then [chan, disp] else [disp, chan]) ++ [encode (.cfgLed w.led), encode (.cfgBtn w.btn)]

/-- A state with a wiring bound and four `OK` responses returned: from a start state, what its boot commands make of it. -/
def Wiring.bind (w : Wiring) (s : State) : State :=
  { s with
    ledCfg := some w.led, btnCfg := some w.btn, dispCfg := some w.disp, chanCfg := some w.chan,
    responses := s.responses ++ List.replicate 4 ⟨.ok, 0⟩ }

/-- The configured state of 95_test_vectors.md, under a wiring. -/
def Wiring.configured (w : Wiring) : State := w.bind State.reset

/-- At `s`, in the run from `start`, the `i`-th word the host had to send on BG is `word`, and it was answered `OK`: every BG
word gets one response, in order, after those already returned or pending at `start` (60_exceptions.md R220). -/
def AnsweredOk (start s : State) (i : Nat) (word : CmdWord) : Prop :=
  start.bgQueue[i]? = some word ∧
    s.responses[start.responses.length + start.pending.toNat + i]? = some ⟨.ok, 0⟩

/-- Steps 2 and 3 of R263 were done at `s`, in the run from `start`: `CFG_DISP` and `CFG_CHAN` in either order, then `CFG_LED`,
then `CFG_BTN`, each answered `OK`. The host may have sent any other words before, between and after them, and events may
have been delivered (log entry 21). -/
def BootAnswered (w : Wiring) (start s : State) : Prop :=
  (∃ k, runSteps k start = .next s) ∧
    ∃ disp chan led btn : Nat, disp < led ∧ chan < led ∧ led < btn ∧
      AnsweredOk start s disp (encode (.cfgDisp w.disp.hundreds w.disp.tens w.disp.units)) ∧
      AnsweredOk start s chan (encode (.cfgChan w.chan.chan w.chan.cs)) ∧
      AnsweredOk start s led (encode (.cfgLed w.led)) ∧ AnsweredOk start s btn (encode (.cfgBtn w.btn))

/-- `BootWired`, at a state `s` of the run from `start`: step 1 of R263, the platform's, and steps 2 and 3 were done, in that
order, each answered `OK` (log entry 21). -/
def BootWired (w : Wiring) (start s : State) : Prop := w.platformReady ∧ BootAnswered w start s

/-- The next step is a step of BG. -/
def State.bgGoesNext (s : State) : Prop := ∃ s1, nextAgent s = some (.bg, s1)

/-- `FairRun`, of the run from a start state: whenever `seq_step` is enabled, after some steps more it is still enabled and
taken; and IRQ delivers finitely many events, whatever the length of the run (R272; log entry 19). -/
def FairRun (start : State) : Prop :=
  (∀ (k : Nat) (s : State) (j : Job), runSteps k start = .next s → s.seq = .busy j →
    ∃ (n : Nat) (t : State), runSteps n s = .next t ∧ t.seq = .busy j ∧ t.bgGoesNext) ∧
  ∃ delivered : Nat, ∀ (k : Nat) (s : State), runSteps k start = .next s →
    start.irqQueue.length ≤ s.irqQueue.length + delivered

/-! ### The actions of frames, slots and renders -/

/-- One SPI frame: one byte inside a chip-select bracket (R131). -/
def frameActions (c : TransmitChannel) (b : Byte) : List Action :=
  [.set c.cs .asserted, .spi c.chan b, .set c.cs .deasserted]

/-- One slot: select the line, send the frame, hold, deselect (R125). -/
def slotActions (ps : Params) (c : TransmitChannel) (line : LineId) (b : Byte) : List Action :=
  [.set line .asserted] ++ frameActions c b ++ [.delay ps.holdMs, .set line .deasserted]

/-- The 18 actions of a successful `RENDER` (R127): hundreds, tens, units. -/
def renderActions (ps : Params) (rom : Memory) (d : PerDigit LineId) (c : TransmitChannel) (g : PerDigit Digit) :
    List Action :=
  slotActions ps c d.hundreds (rom.read g.hundreds) ++ slotActions ps c d.tens (rom.read g.tens) ++
    slotActions ps c d.units (rom.read g.units)

/-- The actions of slot `p` of a job. -/
def Job.slotScript (ps : Params) (rom : Memory) (j : Job) (p : Fin 3) : List Action :=
  let at_p : Job := { j with slot := p }
  slotActions ps ⟨j.chan, j.cs⟩ (Job.line at_p) (rom.read (Job.digitNow at_p))

/-- The actions of a job that does not fail, at the places its `slot` and `phase` count; an `XMIT` starts at place 1. -/
def Job.script (ps : Params) (rom : Memory) (j : Job) : List Action :=
  match j.kind with
  | .render => Job.slotScript ps rom j 0 ++ Job.slotScript ps rom j 1 ++ Job.slotScript ps rom j 2
  | .xmit => (Job.slotScript ps rom j 0).take 4

/-- The place a job stands at. -/
def Job.place (j : Job) : Nat := 6 * j.slot.val + j.phase.val

/-- The actions a job that does not fail has still to emit. -/
def Job.remaining (ps : Params) (rom : Memory) (j : Job) : List Action := (Job.script ps rom j).drop (Job.place j)

/-- How many sequencer steps a job takes at most. -/
def Job.stepsLeft (j : Job) : Nat :=
  match j.kind with
  | .render => 18 - Job.place j
  | .xmit => 4 - Job.place j

/-- How many steps the machine takes at most until it is complete: an event takes one, a BG word at most 19 (an issue step
and, for a `RENDER`, 18 actions; 70_reset_and_hazards.md R271). -/
def State.workLeft (s : State) : Nat :=
  19 * s.bgQueue.length + s.irqQueue.length +
    match s.seq with
    | .idle => 0
    | .busy j => Job.stepsLeft j

/-- A written LineId names a LineId: the numbers are its fields (30_encoding.md R81). -/
def SrcLine.names (l : SrcLine) (k : LineId) : Prop := k.port.toNat = l.port ∧ k.pin.toNat = l.pin

/-- An action that drives the LED: the only action of the interrupt context (42_counter_event.md R173). -/
def Action.isToggle (a : Action) : Bool :=
  match a with
  | .toggle _ => true
  | .set _ _ => false
  | .spi _ _ => false
  | .delay _ => false

/-- A level, and the other level when a count is odd (10_state.md R33). -/
def levelAfterToggles (v : Level) (n : Nat) : Level := if n % 2 = 0 then v else Level.other v

/-- The LED line is none of the lines that the bound display wiring and channel name (part of `DistinctLines`). -/
def LedLineOwn (s : State) (led : LineId) : Prop :=
  (∀ d, s.dispCfg = some d → led ≠ d.hundreds ∧ led ≠ d.tens ∧ led ≠ d.units) ∧
    ∀ c, s.chanCfg = some c → led ≠ c.cs

end Sys2Proof.Machine
end

