-- ==== Sys2Proof/Certificates/Slice0/Obligations.lean ====
section
/-! DEFINITION. The statements for the provers. Each docstring names the rule it formalises; a statement that rests on a
decision or an inference the spec marks as its own, or on a choice of the model, says so. -/

open Sys2Proof Sys2Proof.Machine

/-! ### Encoding (30_encoding.md) -/

/-- Decoding the word of any instruction, on its port, gives that instruction back, every operand at every value.
30_encoding.md sections 2 and 3 (the encoding is the spec's own choice, D10, D11). -/
def Obligations.DecodeOfEncodeIsTheInstruction : Prop :=
  ∀ i : Instr, decode i.port (encode i) = .instr i

/-- A word that decodes to an instruction is that instruction's word, on the one port that may carry it: no other word
means it. 30_encoding.md section 3, 60_exceptions.md section 3 (D10, D11, D22). -/
def Obligations.DecodedWordIsTheEncoding : Prop :=
  ∀ (p : Agent) (w : CmdWord) (i : Instr), decode p w = .instr i → i.wellFormedOn p = true ∧ encode i = w

/-- "A word is the named command exactly when `(word & mask) == match` and it came in on the port named", for every row of
the opcode map, every port and every word. 30_encoding.md section 3 (D11). -/
def Obligations.CommandsAreExactlyTheTableRows : Prop :=
  ∀ (p : Agent) (w : CmdWord) (r : OpcodeRow), r ∈ opcodeTable →
    ((∃ i : Instr, i.row = r ∧ decode p w = .instr i) ↔ r.matches p w = true)

/-- The encoding examples of 30_encoding.md section 5 (its rule R83, which the spec derives from R72 and R74). -/
def Obligations.EncodingExamplesDecode : Prop :=
  decode .bg 0x0100000005#40 = .instr (.cfgLed ⟨0, 5⟩) ∧
  decode .bg 0x020000000D#40 = .instr (.cfgBtn 13) ∧
  decode .bg 0x0300101112#40 = .instr (.cfgDisp ⟨1, 0⟩ ⟨1, 1⟩ ⟨1, 2⟩) ∧
  decode .bg 0x0400000116#40 = .instr (.cfgChan 1 ⟨1, 6⟩) ∧
  decode .bg 0x1000000007#40 = .instr (.enc 7) ∧
  decode .bg 0x1100000003#40 = .instr (.xmit 3) ∧
  decode .bg 0x1200000005#40 = .instr (.render 5) ∧
  decode .bg 0x12000003E7#40 = .instr (.render 999) ∧
  decode .bg 0x2000000000#40 = .instr .rdcnt ∧
  decode .irq 0x300000000D#40 = .instr (.event 13) ∧
  decode .bg 0x0000000000#40 = .illegal 0x0000000000#40 ∧
  decode .bg 0x2000000001#40 = .illegal 0x2000000001#40

/-- The words that are illegal on BG: a reserved opcode, the `EVENT` opcode, or a nonzero reserved bit; in every state such
a word only gets the response `ILLEGAL` with data 0, whatever is bound already. 30_encoding.md section 4 and
60_exceptions.md section 1 (D12, D22, D34). -/
def Obligations.IllegalWordsOnlyAnswerIllegal : Prop :=
  ∀ (w : CmdWord) (s : State),
    (opcode w ∉ [0x01#8, 0x02#8, 0x03#8, 0x04#8, 0x10#8, 0x11#8, 0x12#8, 0x20#8] ∨
      (opcode w = 0x01#8 ∧ (dataField w).extractLsb' 8 24 ≠ 0) ∨
      (opcode w = 0x02#8 ∧ (dataField w).extractLsb' 4 28 ≠ 0) ∨
      (opcode w = 0x03#8 ∧ (dataField w).extractLsb' 24 8 ≠ 0) ∨
      (opcode w = 0x04#8 ∧ (dataField w).extractLsb' 12 20 ≠ 0) ∨
      (opcode w = 0x20#8 ∧ dataField w ≠ 0)) →
    decode .bg w = .illegal w ∧
      issueWord w s = .next { s with pending := false, responses := s.responses ++ [⟨.illegal, 0⟩] }

/-- A word on the IRQ port that is not a well-formed `EVENT` is ignored: nothing changes and nothing is answered.
30_encoding.md section 4 (D12, D36). -/
def Obligations.MalformedIrqWordsAreIgnored : Prop :=
  ∀ (w : CmdWord) (s : State), (opcode w ≠ 0x30#8 ∨ (dataField w).extractLsb' 4 28 ≠ 0) →
    decode .irq w = .ignored ∧ deliverWord w s = .next s

/-! ### The step -/

/-- A step runs the decoded instruction: BG's next word, while `SEQ` is `Idle` and no response is pending, and IRQ's next
word, each taken off its queue. Where both agents have a step, either goes first: the one State's `turns` names (log entry
4), which is taken off, and with none named the one of the free value, whichever that is. 20_memory.md section 3,
60_exceptions.md section 2 (D21). -/
def Obligations.StepRunsTheDecodedInstruction : Prop :=
  (∀ (s : State) (w : CmdWord) (rest : List CmdWord) (i : Instr),
    s.seq = .idle → s.pending = false → s.bgQueue = w :: rest → decode .bg w = .instr i →
      (s.irqQueue = [] → step s = exec i { s with bgQueue := rest }) ∧
      (∀ ts, s.irqQueue ≠ [] → s.turns = .bg :: ts → step s = exec i { s with bgQueue := rest, turns := ts }) ∧
      (∀ v irqRest, s.irqQueue = v :: irqRest → s.turns = [] →
        step s = if Config.freeTurn s.freeIx = .bg then exec i { s with bgQueue := rest, freeIx := s.freeIx + 1 }
          else deliverWord v { s with irqQueue := irqRest, freeIx := s.freeIx + 1 })) ∧
  (∀ (s : State) (w : CmdWord) (rest : List CmdWord) (i : Instr),
    s.irqQueue = w :: rest → decode .irq w = .instr i →
      (s.bgReady = false → step s = exec i { s with irqQueue := rest }) ∧
      (∀ ts, s.bgReady = true → s.turns = .irq :: ts → step s = exec i { s with irqQueue := rest, turns := ts }) ∧
      (s.bgReady = true → s.turns = [] →
        step s = if Config.freeTurn s.freeIx = .irq then exec i { s with irqQueue := rest, freeIx := s.freeIx + 1 }
          else bgStep { s with freeIx := s.freeIx + 1 }))

/-- While `SEQ` is `Busy`, BG's only step is the next sequencer step: that is the step where no event waits, and where one
waits and BG goes first. 10_state.md section 6 (its rule R37), 41_digit_multiplexer.md section 2. -/
def Obligations.BusyStepIsTheSequencerStep : Prop :=
  ∀ (s : State) (j : Job), s.seq = .busy j →
    (s.irqQueue = [] → step s = .next (seqStep j s)) ∧
    (∀ ts, s.irqQueue ≠ [] → s.turns = .bg :: ts → step s = .next (seqStep j { s with turns := ts }))

/-- Where neither agent has a step, the block waits and nothing changes: the model's own choice, log entry 9 (DESIGN
CHOICE), for what a complete run of 70_reset_and_hazards.md section 5 does after its end. -/
def Obligations.CompleteStateStandsStill : Prop :=
  ∀ s : State, s.complete → step s = .next s

/-- "The block raises no synchronous exception and never traps, halts or becomes stuck on any input": every step, from every
state, with any words on the ports, answers a next state. 60_exceptions.md section 1 (D36). -/
def Obligations.EveryStepAnswersAState : Prop :=
  ∀ s : State, ∃ t, step s = .next t

/-! ### Reset and the invariant -/

/-- The state after reset, as the table of 70_reset_and_hazards.md section 1 gives it (D25): its registers, the empty trace, the
level of every line at `LINE_INIT`; no job, no pending response and no event waiting. The table's last row, the segment
table, is the model's default bytes there (PRESUMED, log entry 2), and that the host has no word on either queue is the
model's choice (DESIGN CHOICE, log entry 8). -/
def Obligations.ResetStateIsAsTheTableSays : Prop :=
  State.reset.counter = 0 ∧ State.reset.ledCfg = none ∧ State.reset.btnCfg = none ∧ State.reset.dispCfg = none ∧
    State.reset.chanCfg = none ∧ State.reset.seq = .idle ∧ State.reset.trace = [] ∧ State.reset.pending = false ∧
    State.reset.responses = [] ∧ State.reset.irqQueue = [] ∧ State.reset.bgQueue = [] ∧
    (∀ l, State.reset.lineLevel l = Config.lineInit l) ∧
    (List.finRange 10).map State.reset.segRom.read =
      [0x3F#8, 0x06#8, 0x5B#8, 0x4F#8, 0x66#8, 0x6D#8, 0x7D#8, 0x07#8, 0x7F#8, 0x6F#8]

/-- The invariant holds at reset, and in every start state of a run: one that meets the premise `ResetState`, whatever the
run's legal arguments and the words its host will send. 70_reset_and_hazards.md sections 1 and 5. -/
def Obligations.ResetMeetsTheInvariant : Prop :=
  State.reset.Inv ∧ ResetState State.reset ∧ ∀ s : State, ResetState s → LegalArguments s → s.Inv

/-- Every step keeps the invariant, from every state that meets it: the counter in 0 to 999, the run's arguments legal, a
response pending exactly while a job is in progress, and the job in order. 10_state.md sections 2 and 4. -/
def Obligations.StepKeepsTheInvariant : Prop :=
  ∀ s t : State, s.Inv → step s = .next t → t.Inv

/-- "Invariant: value never observed outside [0, 999]": every step leaves the counter in range if it was in range, and the
answer of a `RDCNT` is then in range. 10_state.md section 2 (its rule R22, which the spec derives), 42_counter_event.md
section 3. -/
def Obligations.CounterIsNeverSeenOutOfRange : Prop :=
  (∀ s t : State, s.counter ≤ 999 → step s = .next t → t.counter ≤ 999) ∧
  (∀ s : State, s.counter ≤ 999 → ∃ t r, exec .rdcnt s = .next t ∧ t.responses = s.responses ++ [r] ∧
    r.status = .ok ∧ r.rdata.toNat = s.counter ∧ r.rdata.toNat ≤ 999)

/-- 10_state.md R21: the counter is 0 at reset, and an unsigned number of `WORD_BITS` bits after every step from
one, at every `WORD_BITS` a run may take; only a delivered event of the
configured button pin changes it; no command of BG writes it; `RDCNT` reads it. -/
def Obligations.OnlyQualifyingEventsWriteTheCounter : Prop :=
  State.reset.counter = 0 ∧
  (∀ s t : State, 10 ≤ s.params.wordBits → s.counter < 2 ^ s.params.wordBits → step s = .next t →
    t.counter < 2 ^ t.params.wordBits) ∧
  (∀ s t : State, step s = .next t →
    t.counter = s.counter ∨
      ∃ w rest b, s.irqQueue = w :: rest ∧ t.irqQueue = rest ∧ decode .irq w = .instr (.event b) ∧ s.btnCfg = some b) ∧
  (∀ (i : Instr) (s t : State), i.port = .bg → exec i s = .next t → t.counter = s.counter) ∧
  (∀ s t : State, exec .rdcnt s = .next t →
    ∃ r, t.responses = s.responses ++ [r] ∧ (s.counter < 2 ^ 32 → r.rdata.toNat = s.counter))

/-- "No command writes the ROM": after every step every entry of the segment table reads as before; nor do the parameters
of the run change. 20_memory.md section 1, 10_state.md section 6. -/
def Obligations.RomAndParametersNeverChange : Prop :=
  ∀ s t : State, step s = .next t → (∀ i : Digit, t.segRom.read i = s.segRom.read i) ∧ t.params = s.params

/-- A binding that is set stays as it is: no step clears or changes it. 43_configuration.md section 2 (D17). -/
def Obligations.BindingsAreWriteOnce : Prop :=
  ∀ s t : State, step s = .next t →
    (∀ x, s.ledCfg = some x → t.ledCfg = some x) ∧ (∀ x, s.btnCfg = some x → t.btnCfg = some x) ∧
    (∀ x, s.dispCfg = some x → t.dispCfg = some x) ∧ (∀ x, s.chanCfg = some x → t.chanCfg = some x)

/-- The trace only grows, by at most one action a step; the action is a sequencer step's, or the `TOGGLE` of the bound LED
line by an event (which never emits a `DELAY` or an `SPI`). 10_state.md sections 4 and 5, 42_counter_event.md section 2. -/
def Obligations.EachStepEmitsAtMostOneAction : Prop :=
  ∀ s t : State, step s = .next t →
    t.trace = s.trace ∨
    (∃ j, s.seq = .busy j ∧ t.irqQueue = s.irqQueue ∧ t.trace = s.trace ++ [seqAction s.params s.segRom j]) ∨
    (∃ l w, s.ledCfg = some l ∧ s.irqQueue = w :: t.irqQueue ∧ t.trace = s.trace ++ [.toggle l])

/-- "Every BG command gets exactly one response": the words to issue, the responses returned and the response pending
together keep their number, step by step. 60_exceptions.md section 1 (D13). -/
def Obligations.EveryCommandGetsOneResponse : Prop :=
  ∀ s t : State, s.Inv → step s = .next t →
    t.bgQueue.length + t.responses.length + t.pending.toNat = s.bgQueue.length + s.responses.length + s.pending.toNat

/-- 10_state.md R37: while `SEQ` is `Busy`, BG issues no command, so its words to issue stay as they are; its only step is
the next sequencer step; a step that is not that one delivers an IRQ word and leaves the job and the responses as they are.
IRQ may take a step whenever it has a word, `SEQ` `Busy` or not: some choice of turns makes that the step. -/
def Obligations.BusySequencerBlocksBg : Prop :=
  (∀ (s t : State) (j : Job), s.seq = .busy j → step s = .next t →
    t.bgQueue = s.bgQueue ∧
    ((∃ ts n, t = seqStep j { s with turns := ts, freeIx := n }) ∨
      (∃ w, s.irqQueue = w :: t.irqQueue ∧ t.seq = .busy j ∧ t.responses = s.responses))) ∧
  (∀ (s : State) (j : Job), s.seq = .busy j → s.irqQueue = [] → step s = .next (seqStep j s)) ∧
  (∀ (s : State) (w : CmdWord) (rest : List CmdWord), s.irqQueue = w :: rest →
    ∃ ts ts', step { s with turns := ts } = deliverWord w { s with irqQueue := rest, turns := ts' })

/-! ### Configuration commands (43_configuration.md) -/

/-- 43_configuration.md R190, `CFG_LED`: its words on the BG port; the binding from `none`, for every LineId; the refusal of
a second one. The record updates say the frame: nothing else changes, no action is emitted. -/
def Obligations.CfgLedBindsTheLed : Prop :=
  (∀ d : Val, decode .bg (mkWord 0x01#8 d) =
    if d.extractLsb' 8 24 = 0 then .instr (.cfgLed ⟨d.extractLsb' 4 4, d.extractLsb' 0 4⟩)
    else .illegal (mkWord 0x01#8 d)) ∧
  (∀ d : Val, decode .irq (mkWord 0x01#8 d) = .ignored) ∧
  (∀ (l : LineId) (s : State), s.ledCfg = none →
    exec (.cfgLed l) s =
      .next { s with ledCfg := some l, pending := false, responses := s.responses ++ [⟨.ok, 0⟩] }) ∧
  (∀ (l x : LineId) (s : State), s.ledCfg = some x →
    exec (.cfgLed l) s = .next { s with pending := false, responses := s.responses ++ [⟨.alreadyConfigured, 0⟩] })

/-- 43_configuration.md R191, `CFG_BTN`; pin 0 is stored as `some 0`, and after it `EVENT 0` qualifies. -/
def Obligations.CfgBtnBindsTheButton : Prop :=
  (∀ d : Val, decode .bg (mkWord 0x02#8 d) =
    if d.extractLsb' 4 28 = 0 then .instr (.cfgBtn (d.extractLsb' 0 4)) else .illegal (mkWord 0x02#8 d)) ∧
  (∀ d : Val, decode .irq (mkWord 0x02#8 d) = .ignored) ∧
  (∀ (p : PinId) (s : State), s.btnCfg = none →
    exec (.cfgBtn p) s =
      .next { s with btnCfg := some p, pending := false, responses := s.responses ++ [⟨.ok, 0⟩] }) ∧
  (∀ (p x : PinId) (s : State), s.btnCfg = some x →
    exec (.cfgBtn p) s = .next { s with pending := false, responses := s.responses ++ [⟨.alreadyConfigured, 0⟩] }) ∧
  (∀ s t : State, s.btnCfg = none → exec (.cfgBtn 0) s = .next t → t.btnCfg = some 0 ∧ t.qualifies 0 = true)

/-- 43_configuration.md R192, `CFG_DISP`: the three lines are bound together, distinct or not. -/
def Obligations.CfgDispBindsTheSelectLines : Prop :=
  (∀ d : Val, decode .bg (mkWord 0x03#8 d) =
    if d.extractLsb' 24 8 = 0 then
      .instr (.cfgDisp ⟨d.extractLsb' 20 4, d.extractLsb' 16 4⟩ ⟨d.extractLsb' 12 4, d.extractLsb' 8 4⟩
        ⟨d.extractLsb' 4 4, d.extractLsb' 0 4⟩)
    else .illegal (mkWord 0x03#8 d)) ∧
  (∀ d : Val, decode .irq (mkWord 0x03#8 d) = .ignored) ∧
  (∀ (h t u : LineId) (s : State), s.dispCfg = none →
    exec (.cfgDisp h t u) s =
      .next { s with dispCfg := some ⟨h, t, u⟩, pending := false, responses := s.responses ++ [⟨.ok, 0⟩] }) ∧
  (∀ (h t u : LineId) (x : PerDigit LineId) (s : State), s.dispCfg = some x →
    exec (.cfgDisp h t u) s = .next { s with pending := false, responses := s.responses ++ [⟨.alreadyConfigured, 0⟩] })

/-- 43_configuration.md R193, `CFG_CHAN`: every channel number is accepted. -/
def Obligations.CfgChanBindsTheChannel : Prop :=
  (∀ d : Val, decode .bg (mkWord 0x04#8 d) =
    if d.extractLsb' 12 20 = 0 then .instr (.cfgChan (d.extractLsb' 8 4) ⟨d.extractLsb' 4 4, d.extractLsb' 0 4⟩)
    else .illegal (mkWord 0x04#8 d)) ∧
  (∀ d : Val, decode .irq (mkWord 0x04#8 d) = .ignored) ∧
  (∀ (c : ChannelId) (l : LineId) (s : State), s.chanCfg = none →
    exec (.cfgChan c l) s =
      .next { s with chanCfg := some ⟨c, l⟩, pending := false, responses := s.responses ++ [⟨.ok, 0⟩] }) ∧
  (∀ (c : ChannelId) (l : LineId) (x : TransmitChannel) (s : State), s.chanCfg = some x →
    exec (.cfgChan c l) s = .next { s with pending := false, responses := s.responses ++ [⟨.alreadyConfigured, 0⟩] })

/-- The boot commands of 70_reset_and_hazards.md section 2 (D26), in either order of their first two, run from any start state
of a run with no event waiting, as four steps, each answered `OK`: the wiring, whatever it is, is bound, and the words after
them are still to send. From `State.reset` it is the configured state of 95_test_vectors.md. -/
def Obligations.BootReachesTheConfiguredState : Prop :=
  (∀ (w : Wiring) (chanFirst : Bool) (rest : List CmdWord) (start : State), ResetState start → start.irqQueue = [] →
    start.bgQueue = w.bootWords chanFirst ++ rest → runSteps 4 start = .next { w.bind start with bgQueue := rest }) ∧
  ∀ (w : Wiring) (chanFirst : Bool),
    runSteps 4 { State.reset with bgQueue := w.bootWords chanFirst } = .next w.configured

/-! ### The encoder (40_segment_encoder.md) -/

/-- `ENC` answers `OK` with the table's entry at `VAL mod 10`, zero-extended, for every value, with no binding needed, and
changes nothing else. 40_segment_encoder.md section 2 (a command by the spec's own choice, D35). -/
def Obligations.EncAnswersTheSegmentPattern : Prop :=
  (∀ d : Val, decode .bg (mkWord 0x10#8 d) = .instr (.enc d)) ∧
  ∀ (v : Val) (i : Digit) (s : State), i.val = v.toNat % 10 →
    exec (.enc v) s =
      .next { s with pending := false, responses := s.responses ++ [⟨.ok, (s.segRom.read i).setWidth 32⟩] }

/-- For every segment table a run may take, and every value, `SegEncode` gives the table's entry at the value's remainder by
10, so it never reads outside the table. 40_segment_encoder.md section 1 (its rule R100). That the ROM of a table is a list
of cells in a canonical form is the model's own representation of it (PRESUMED, log entry 2). -/
def Obligations.EncoderReadsAnyTable : Prop :=
  ∀ (tab : Digit → Byte) (v : Val),
    Memory.wf (Memory.ofTable tab) = true ∧
    ∃ i : Digit, i.val = v.toNat % 10 ∧ segEncode (Memory.ofTable tab) v = (Memory.ofTable tab).read i ∧
      (Memory.ofTable tab).read i = tab i

/-- The laws of the encoder over any table: on a digit it is the table's entry, and it has period 10.
40_segment_encoder.md section 3 (its rules R104 and R105, which the spec derives from R100). -/
def Obligations.EncoderHasPeriodTen : Prop :=
  (∀ (rom : Memory) (i : Digit), segEncode rom (BitVec.ofNat 32 i.val) = rom.read i) ∧
  ∀ (rom : Memory) (d k : Nat), d + 10 * k < 2 ^ 32 →
    segEncode rom (BitVec.ofNat 32 (d + 10 * k)) = segEncode rom (BitVec.ofNat 32 d)

/-! ### The digit multiplexer (41_digit_multiplexer.md) -/

/-- 41_digit_multiplexer.md R120: the three formulas, each digit in 0 to 9. -/
def Obligations.DecomposeGivesTheThreeDigits : Prop :=
  ∀ v : Val,
    (decompose v).units.val = v.toNat % 10 ∧
    (decompose v).tens.val = v.toNat / 10 % 10 ∧
    (decompose v).hundreds.val = v.toNat / 100 % 10 ∧
    (decompose v).units.val ≤ 9 ∧ (decompose v).tens.val ≤ 9 ∧ (decompose v).hundreds.val ≤ 9

/-- The digits of a value below 1000 make it up again, and a larger value shows its remainder by 1000.
41_digit_multiplexer.md section 1 (its rules R121 and R122, which the spec derives from R120). -/
def Obligations.DigitsMakeUpTheValue : Prop :=
  ∀ v : Val,
    (v.toNat ≤ 999 →
      (decompose v).hundreds.val * 100 + (decompose v).tens.val * 10 + (decompose v).units.val = v.toNat) ∧
    decompose v = decompose (BitVec.ofNat 32 (v.toNat % 1000))

/-- 41_digit_multiplexer.md R123: a `RENDER` starts at slot 0, the hundreds position; slot 1 is the tens position, slot 2 the
units position; the line and the digit of each slot are those of `DISP_CFG` and of `Decompose`; and the slots run in that
order: the last action of slot 0 goes on at slot 1, that of slot 1 at slot 2, and that of slot 2 ends the job. -/
def Obligations.SlotsAreHundredsTensUnits : Prop :=
  (∀ (d : PerDigit LineId) (c : TransmitChannel) (v : Val) (j : Job), j = renderJob d c v →
    (j.slot = 0 ∧ PerDigit.get j.sel 0 = some d.hundreds ∧ PerDigit.get j.sel 1 = some d.tens ∧
      PerDigit.get j.sel 2 = some d.units) ∧
    PerDigit.get j.digit 0 = some (decompose v).hundreds ∧ PerDigit.get j.digit 1 = some (decompose v).tens ∧
    PerDigit.get j.digit 2 = some (decompose v).units ∧
    ∀ p : Fin 3, some (Job.line { j with slot := p }) = PerDigit.get j.sel p ∧
      some (Job.digitNow { j with slot := p }) = PerDigit.get j.digit p) ∧
  ∀ (s : State) (j : Job), j.kind = .render → j.phase = 5 → j.failed = false →
    (j.slot = 0 → (seqStep j s).seq = .busy { j with slot := 1, phase := 0 }) ∧
    (j.slot = 1 → (seqStep j s).seq = .busy { j with slot := 2, phase := 0 }) ∧
    (j.slot = 2 → (seqStep j s).seq = .idle)

/-- `RENDER`: its words; with both bindings it starts the job and emits and answers nothing yet; without one it answers
`NOT_CONFIGURED` and does nothing. 41_digit_multiplexer.md section 2 (the answer without a binding is D15's). -/
def Obligations.RenderStartsItsJob : Prop :=
  (∀ d : Val, decode .bg (mkWord 0x12#8 d) = .instr (.render d)) ∧
  (∀ (v : Val) (s : State) (d : PerDigit LineId) (c : TransmitChannel), s.dispCfg = some d → s.chanCfg = some c →
    exec (.render v) s = .next { s with
      pending := true,
      seq := .busy {
        kind := .render, chan := c.chan, cs := c.cs,
        sel := ⟨some d.hundreds, some d.tens, some d.units⟩,
        digit := ⟨some (decompose v).hundreds, some (decompose v).tens, some (decompose v).units⟩,
        slot := 0, phase := 0, failed := false } }) ∧
  (∀ (v : Val) (s : State), (s.dispCfg = none ∨ s.chanCfg = none) →
    exec (.render v) s = .next { s with pending := false, responses := s.responses ++ [⟨.notConfigured, 0⟩] })

/-- `XMIT`: its words; with the channel bound it starts the job, at phase 1, with the value's last digit; without it it
answers `NOT_CONFIGURED`. It needs no display wiring. 41_digit_multiplexer.md section 3 (D35). -/
def Obligations.XmitStartsItsJob : Prop :=
  (∀ d : Val, decode .bg (mkWord 0x11#8 d) = .instr (.xmit d)) ∧
  (∀ (v : Val) (i : Digit) (s : State) (c : TransmitChannel), i.val = v.toNat % 10 → s.chanCfg = some c →
    exec (.xmit v) s = .next { s with
      pending := true,
      seq := .busy {
        kind := .xmit, chan := c.chan, cs := c.cs, sel := ⟨none, none, none⟩, digit := ⟨some i, none, none⟩,
        slot := 0, phase := 1, failed := false } }) ∧
  (∀ (v : Val) (s : State), s.chanCfg = none →
    exec (.xmit v) s = .next { s with pending := false, responses := s.responses ++ [⟨.notConfigured, 0⟩] })

/-- The complete trace of a `RENDER` that no event interrupts: 19 steps, the issue and the 18 actions, then `OK`; nothing
else changes. 41_digit_multiplexer.md section 2 (its rule R127, which the spec derives), for every table, every hold, every
wiring and every value. -/
def Obligations.RenderEmitsItsEighteenActions : Prop :=
  ∀ (s : State) (v : Val) (rest : List CmdWord) (d : PerDigit LineId) (c : TransmitChannel),
    s.seq = .idle → s.pending = false → s.irqQueue = [] → Infallible s →
    s.bgQueue = encode (.render v) :: rest → s.dispCfg = some d → s.chanCfg = some c →
      runSteps 19 s = .next { s with
        bgQueue := rest, trace := s.trace ++ renderActions s.params s.segRom d c (decompose v),
        responses := s.responses ++ [⟨.ok, 0⟩] }

/-- An `XMIT` that no event interrupts emits one frame, of the value's last digit, and answers `OK`, in 4 steps.
41_digit_multiplexer.md section 3 (D35). -/
def Obligations.XmitEmitsOneFrame : Prop :=
  ∀ (s : State) (v : Val) (i : Digit) (rest : List CmdWord) (c : TransmitChannel),
    s.seq = .idle → s.pending = false → s.irqQueue = [] → Infallible s → i.val = v.toNat % 10 →
    s.bgQueue = encode (.xmit v) :: rest → s.chanCfg = some c →
      runSteps 4 s = .next { s with
        bgQueue := rest, trace := s.trace ++ frameActions c (s.segRom.read i),
        responses := s.responses ++ [⟨.ok, 0⟩] }

/-- In an infallible run every step of a busy machine either emits the next action of the job's script and goes on, or emits
the last one, ends the job and answers `OK`, or is an event's, which leaves the job and the responses as they are and
appends at most a `TOGGLE` of the LED line. 41_digit_multiplexer.md section 2, 42_counter_event.md section 2. -/
def Obligations.SequencerFollowsItsScript : Prop :=
  ∀ (s t : State) (j : Job), s.Inv → Infallible s → s.seq = .busy j → step s = .next t →
    (∃ a j', Job.remaining s.params s.segRom j = a :: Job.remaining s.params s.segRom j' ∧
      Job.remaining s.params s.segRom j' ≠ [] ∧ t.seq = .busy j' ∧ t.irqQueue = s.irqQueue ∧
      t.trace = s.trace ++ [a] ∧ t.responses = s.responses) ∨
    (∃ a, Job.remaining s.params s.segRom j = [a] ∧ t.seq = .idle ∧ t.irqQueue = s.irqQueue ∧
      t.trace = s.trace ++ [a] ∧ t.responses = s.responses ++ [⟨.ok, 0⟩]) ∨
    (∃ w, s.irqQueue = w :: t.irqQueue ∧ t.seq = .busy j ∧ t.responses = s.responses ∧
      (t.trace = s.trace ∨ ∃ l, s.ledCfg = some l ∧ t.trace = s.trace ++ [.toggle l]))

/-- Whatever events are delivered during it, and at whatever points, a `RENDER` ends, answers `OK`, and its own actions are
exactly the 18 of the value it was given; all that stands between them are toggles of the LED line.
41_digit_multiplexer.md sections 2 and 4 (its rules R127 and R134, which the spec derives), 42_counter_event.md section 2
(D21). -/
def Obligations.InterruptedRenderShowsOneValue : Prop :=
  ∀ (s : State) (v : Val) (rest : List CmdWord) (d : PerDigit LineId) (c : TransmitChannel),
    s.Inv → Infallible s → s.seq = .idle → s.bgQueue = encode (.render v) :: rest →
    s.dispCfg = some d → s.chanCfg = some c →
      ∃ (n : Nat) (t : State) (xs : List Action), n ≤ 19 + s.irqQueue.length ∧ runSteps n s = .next t ∧
        t.seq = .idle ∧ t.bgQueue = rest ∧ t.responses = s.responses ++ [⟨.ok, 0⟩] ∧ t.trace = s.trace ++ xs ∧
        xs.filter (fun a => !Action.isToggle a) = renderActions s.params s.segRom d c (decompose v) ∧
        ∀ l, Action.toggle l ∈ xs → s.ledCfg = some l

/-- After a `RENDER` that no event interrupts, with `H`, `T`, `U` and `CS` pairwise distinct, each of them is at
`DEASSERTED` whatever its level was, and every other line has the level it had. 41_digit_multiplexer.md section 2 (its rule
R128, which the spec derives), 10_state.md section 5. -/
def Obligations.RenderLeavesItsLinesDeasserted : Prop :=
  ∀ (s : State) (v : Val) (rest : List CmdWord) (d : PerDigit LineId) (c : TransmitChannel),
    s.seq = .idle → s.pending = false → s.irqQueue = [] → Infallible s →
    s.bgQueue = encode (.render v) :: rest → s.dispCfg = some d → s.chanCfg = some c →
    [d.hundreds, d.tens, d.units, c.cs].Nodup →
      ∃ t, runSteps 19 s = .next t ∧
        (∀ l ∈ [d.hundreds, d.tens, d.units, c.cs], t.lineLevel l = some .deasserted) ∧
        ∀ l, l ∉ [d.hundreds, d.tens, d.units, c.cs] → t.lineLevel l = s.lineLevel l

/-- During slot `p` of a `RENDER`, `sel[p]` is the only select line at `ASSERTED`, and between slots none is: after the first
`k` of its 18 actions, from select lines at `DEASSERTED`, no event between. 41_digit_multiplexer.md section 2 (its rule R128,
which the spec derives). -/
def Obligations.OneSelectLineAtATime : Prop :=
  ∀ (s : State) (v : Val) (rest : List CmdWord) (d : PerDigit LineId) (c : TransmitChannel) (k : Nat),
    s.seq = .idle → s.pending = false → s.irqQueue = [] → Infallible s →
    s.bgQueue = encode (.render v) :: rest → s.dispCfg = some d → s.chanCfg = some c →
    [d.hundreds, d.tens, d.units, c.cs].Nodup → k ≤ 18 →
    (∀ q : Fin 3, s.lineLevel (PerDigit.get d q) = some .deasserted) →
      ∃ t, runSteps (1 + k) s = .next t ∧ ∀ q : Fin 3,
        t.lineLevel (PerDigit.get d q) =
          some (if 6 * q.val < k ∧ k < 6 * q.val + 6 then .asserted else .deasserted)

/-- In a fallible run, the byte of a `RENDER`'s frame that fails: the frame is closed, the hold is skipped, the select line
is deasserted, no later slot runs, and the answer is `TRANSMIT_FAILED`. One that does not fail goes on. An `XMIT` that
fails closes its frame and answers so. 41_digit_multiplexer.md section 3 (its rule R132; D19); the draw is a free value, log
entry 5. -/
def Obligations.FailedTransmitClosesAndAborts : Prop :=
  ∀ (s : State) (j : Job) (g : Digit), s.Inv → s.params.transmitFallible = true → s.irqQueue = [] →
    s.seq = .busy j → j.phase = 2 → PerDigit.get j.digit j.slot = some g →
    (∀ l, j.kind = .render → s.takeDraw.1 = true → PerDigit.get j.sel j.slot = some l →
      runSteps 3 s = .next { s.takeDraw.2 with
        seq := .idle, pending := false,
        trace := s.trace ++ [.spi j.chan (s.segRom.read g), .set j.cs .deasserted, .set l .deasserted],
        responses := s.responses ++ [⟨.transmitFailed, 0⟩] }) ∧
    (j.kind = .xmit → s.takeDraw.1 = true →
      runSteps 2 s = .next { s.takeDraw.2 with
        seq := .idle, pending := false,
        trace := s.trace ++ [.spi j.chan (s.segRom.read g), .set j.cs .deasserted],
        responses := s.responses ++ [⟨.transmitFailed, 0⟩] }) ∧
    (s.takeDraw.1 = false →
      step s = .next { s.takeDraw.2 with
        seq := .busy { j with phase := 3 }, trace := s.trace ++ [.spi j.chan (s.segRom.read g)] })

/-- In an infallible run no step answers `TRANSMIT_FAILED`. 60_exceptions.md section 1 (its rule R224; D19). -/
def Obligations.InfallibleRunsNeverAnswerTransmitFailed : Prop :=
  ∀ s t : State, s.Inv → Infallible s → step s = .next t →
    t.responses = s.responses ∨ ∃ r, t.responses = s.responses ++ [r] ∧ r.status ≠ .transmitFailed

/-- A job that has started runs to its response: without events, within the number of its steps, fallible or not.
41_digit_multiplexer.md section 4 (its rule R136, which the spec derives). -/
def Obligations.StartedJobRunsToItsResponse : Prop :=
  ∀ (s : State) (j : Job), s.Inv → s.seq = .busy j → s.irqQueue = [] →
    ∃ (n : Nat) (t : State), n ≤ Job.stepsLeft j ∧ runSteps n s = .next t ∧ t.seq = .idle ∧ t.pending = false ∧
      t.bgQueue = s.bgQueue ∧ ∃ r, t.responses = s.responses ++ [r]

/-! ### The counter and the Event Handler (42_counter_event.md) -/

/-- 42_counter_event.md R161, `EVENT`: its words, on the IRQ port only; no button bound, or another pin: nothing; the button
pin: one `TOGGLE` of the LED line if it is bound, and the counter advanced, 999 and above to 0; no response. The record
updates say the frame: no other state changes. -/
def Obligations.EventTogglesAndCounts : Prop :=
  (∀ d : Val, decode .irq (mkWord 0x30#8 d) =
    if d.extractLsb' 4 28 = 0 then .instr (.event (d.extractLsb' 0 4)) else .ignored) ∧
  (∀ d : Val, decode .bg (mkWord 0x30#8 d) = .illegal (mkWord 0x30#8 d)) ∧
  (∀ (p : PinId) (s : State), s.btnCfg = none → exec (.event p) s = .next s) ∧
  (∀ (p b : PinId) (s : State), s.btnCfg = some b → p ≠ b → exec (.event p) s = .next s) ∧
  (∀ (b : PinId) (s : State), s.btnCfg = some b → s.ledCfg = none →
    exec (.event b) s = .next { s with
      counter := if s.counter + 1 > 999 then 0 else s.counter + 1 }) ∧
  (∀ (b : PinId) (l : LineId) (s : State), s.btnCfg = some b → s.ledCfg = some l →
    exec (.event b) s = .next { s with
      trace := s.trace ++ [.toggle l],
      counter := if s.counter + 1 > 999 then 0 else s.counter + 1 })

/-- 42_counter_event.md R164: the delivered word of an event on a pin other than the configured button pin changes no state
and emits no action, in any state of the sequencer and whatever else is bound. -/
def Obligations.OtherPinsAreIgnored : Prop :=
  ∀ (p b : PinId) (s : State), s.btnCfg = some b → p ≠ b → deliverWord (encode (.event p)) s = .next s

/-- 42_counter_event.md R170, `RDCNT`: its one word; it answers `OK` with the counter and changes nothing else, with any
bindings; right after reset the answer is 0; within the invariant it is at most 999; it is not issued while `SEQ` is
`Busy`. -/
def Obligations.RdcntAnswersTheCounter : Prop :=
  (∀ d : Val, decode .bg (mkWord 0x20#8 d) = if d = 0 then .instr .rdcnt else .illegal (mkWord 0x20#8 d)) ∧
  (∀ d : Val, decode .irq (mkWord 0x20#8 d) = .ignored) ∧
  (∀ s : State, ∃ v : Val, exec .rdcnt s =
      .next { s with pending := false, responses := s.responses ++ [⟨.ok, v⟩] } ∧
    (s.counter < 2 ^ 32 → v.toNat = s.counter)) ∧
  (∀ s t : State, exec .rdcnt s = .next t → t.counter = s.counter) ∧
  exec .rdcnt State.reset = .next { State.reset with responses := [⟨.ok, 0⟩] } ∧
  (∀ s : State, s.Inv → ∃ v : Val, exec .rdcnt s =
      .next { s with pending := false, responses := s.responses ++ [⟨.ok, v⟩] } ∧ v.toNat = s.counter ∧ v.toNat ≤ 999) ∧
  (∀ (s t : State) (j : Job), s.seq = .busy j → step s = .next t → t.bgQueue = s.bgQueue)

/-- Over any run with the button bound, however events and BG steps fall, the counter has advanced by the number of
qualifying events delivered, by remainder of 1000, and the LED line, if bound, was toggled once for each of them.
42_counter_event.md section 2 (its rules R163 and R167, which the spec derives). -/
def Obligations.CounterCountsTheDeliveredEvents : Prop :=
  ∀ (k : Nat) (s t : State) (b : PinId), s.counter ≤ 999 → s.btnCfg = some b → runSteps k s = .next t →
    ∃ delivered : List CmdWord, s.irqQueue = delivered ++ t.irqQueue ∧
      t.counter =
        (s.counter + delivered.countP (fun w => decide (decode .irq w = .instr (.event b)))) % 1000 ∧
      ∀ l, s.ledCfg = some l →
        t.trace.filter Action.isToggle = s.trace.filter Action.isToggle ++
          List.replicate (delivered.countP (fun w => decide (decode .irq w = .instr (.event b)))) (.toggle l)

/-- A sequencer step and an event may come in either order: the sequencer, the counter, the responses and all else are the
same, and only the places of the two actions in the trace differ. 60_exceptions.md section 2 (its rules R228 and R229; D21),
42_counter_event.md section 2. -/
def Obligations.EventCommutesWithSequencerStep : Prop :=
  ∀ (s s1 : State) (j : Job) (p : PinId), s.seq = .busy j → exec (.event p) s = .next s1 →
    ∃ (t2 : State) (es : List Action), exec (.event p) (seqStep j s) = .next t2 ∧
      s1.seq = .busy j ∧ t2 = { seqStep j s1 with trace := t2.trace } ∧
      s1.trace = s.trace ++ es ∧
      (seqStep j s1).trace = s.trace ++ (es ++ [seqAction s.params s.segRom j]) ∧
      t2.trace = s.trace ++ ([seqAction s.params s.segRom j] ++ es)

/-! ### Line levels (10_state.md section 5) -/

/-- Actions that do not `SET` a line leave its level at the start level, flipped once for each `TOGGLE` of the line; from an
unknown start it stays unknown. 10_state.md section 5 (its rules R32, D24, and R33, which the spec derives). -/
def Obligations.TogglesFlipTheLevel : Prop :=
  ∀ (l : LineId) (as : List Action), (∀ v, Action.set l v ∉ as) →
    (∀ v : Level, levelFrom (some v) l as = some (levelAfterToggles v (as.count (.toggle l)))) ∧
    levelFrom none l as = none

/-- LED parity: from any start level, where the LED line's level is the start level flipped by the parity of the counter, it
still is after every step, across the wrap too, so long as the LED line is none of the display's lines.
70_reset_and_hazards.md section 3 (its rule R267, which the spec derives). -/
def Obligations.LedParityFollowsTheCounter : Prop :=
  ∀ (s t : State) (led : LineId) (v : Level), s.Inv → s.ledCfg = some led → LedLineOwn s led →
    levelFrom (some v) led s.trace = some (levelAfterToggles v s.counter) → step s = .next t →
      levelFrom (some v) led t.trace = some (levelAfterToggles v t.counter)

/-! ### Frames -/

/-- The frame of the four configuration commands: each changes its own binding and the responses, and nothing else.
43_configuration.md sections 1 and 2. -/
def Obligations.FrameOfConfigurationCommands : Prop :=
  ∀ (i : Instr) (s t : State),
    ((∃ l, i = .cfgLed l) ∨ (∃ p, i = .cfgBtn p) ∨ (∃ h u l, i = .cfgDisp h u l) ∨ (∃ c l, i = .cfgChan c l)) →
    exec i s = .next t →
      t.counter = s.counter ∧ t.seq = s.seq ∧ t.trace = s.trace ∧ (∀ d : Digit, t.segRom.read d = s.segRom.read d) ∧
      t.params = s.params ∧ t.bgQueue = s.bgQueue ∧ t.irqQueue = s.irqQueue ∧ t.turns = s.turns ∧ t.draws = s.draws ∧
      t.freeIx = s.freeIx ∧
      (t.ledCfg = s.ledCfg ∨ ∃ l, i = .cfgLed l) ∧ (t.btnCfg = s.btnCfg ∨ ∃ p, i = .cfgBtn p) ∧
      (t.dispCfg = s.dispCfg ∨ ∃ h u l, i = .cfgDisp h u l) ∧ (t.chanCfg = s.chanCfg ∨ ∃ c l, i = .cfgChan c l)

/-- The frame of `ENC`, `RDCNT`, `RENDER` and `XMIT`: their issue steps change `SEQ`, the pending response and the
responses at most, and `ENC` and `RDCNT` not even `SEQ`. 20_memory.md section 2, 41_digit_multiplexer.md sections 2, 3. -/
def Obligations.FrameOfReadingAndJobCommands : Prop :=
  ∀ (i : Instr) (s t : State),
    ((∃ v, i = .enc v) ∨ i = .rdcnt ∨ (∃ v, i = .render v) ∨ (∃ v, i = .xmit v)) →
    exec i s = .next t →
      t.counter = s.counter ∧ t.ledCfg = s.ledCfg ∧ t.btnCfg = s.btnCfg ∧ t.dispCfg = s.dispCfg ∧
      t.chanCfg = s.chanCfg ∧ t.trace = s.trace ∧ (∀ d : Digit, t.segRom.read d = s.segRom.read d) ∧
      t.params = s.params ∧ t.bgQueue = s.bgQueue ∧ t.irqQueue = s.irqQueue ∧ t.turns = s.turns ∧ t.draws = s.draws ∧
      t.freeIx = s.freeIx ∧ (t.seq = s.seq ∨ (∃ v, i = .render v) ∨ ∃ v, i = .xmit v)

/-- The frame of `EVENT`: interrupt entry saves nothing and return restores nothing; the sequencer, the job, the pending
response, the responses, the bindings and the ROM are left as they are, and only `COUNTER` and `TRACE` may change.
60_exceptions.md section 2 (its rules R229 and R230, which the spec derives). -/
def Obligations.FrameOfEvent : Prop :=
  ∀ (p : PinId) (s t : State), exec (.event p) s = .next t →
    t.seq = s.seq ∧ t.pending = s.pending ∧ t.responses = s.responses ∧ t.ledCfg = s.ledCfg ∧ t.btnCfg = s.btnCfg ∧
    t.dispCfg = s.dispCfg ∧ t.chanCfg = s.chanCfg ∧ (∀ d : Digit, t.segRom.read d = s.segRom.read d) ∧
    t.params = s.params ∧ t.bgQueue = s.bgQueue ∧ t.irqQueue = s.irqQueue ∧ t.turns = s.turns ∧ t.draws = s.draws ∧
    t.freeIx = s.freeIx

/-- The frame of a sequencer step: it writes no binding, no counter, no ROM entry and no queue.
41_digit_multiplexer.md sections 2 and 4. -/
def Obligations.FrameOfSequencerStep : Prop :=
  ∀ (j : Job) (s : State),
    (seqStep j s).counter = s.counter ∧ (seqStep j s).ledCfg = s.ledCfg ∧ (seqStep j s).btnCfg = s.btnCfg ∧
    (seqStep j s).dispCfg = s.dispCfg ∧ (seqStep j s).chanCfg = s.chanCfg ∧
    (∀ d : Digit, (seqStep j s).segRom.read d = s.segRom.read d) ∧ (seqStep j s).params = s.params ∧
    (seqStep j s).bgQueue = s.bgQueue ∧ (seqStep j s).irqQueue = s.irqQueue ∧ (seqStep j s).turns = s.turns

/-! ### Runs, responses and the assembler -/

/-- Every run ends: from every state that meets the invariant, with any words on both ports and any order of steps, the
machine is complete within a bounded number of steps, with one response for every word issued and every event delivered.
70_reset_and_hazards.md section 5 (its rule R275; D39); 41_digit_multiplexer.md section 4. It rests on the events still to
deliver being a finite list of State (DEDUCED, log entry 19). -/
def Obligations.EveryRunCompletes : Prop :=
  ∀ s : State, s.Inv →
    ∃ (n : Nat) (t : State), n ≤ s.workLeft ∧ runSteps n s = .next t ∧ t.complete ∧
      t.responses.length = s.responses.length + s.bgQueue.length + s.pending.toNat

/-- The response word is `STATUS` above `RDATA`; reading it back gives the response, and a reserved status code, which the
block never returns, faults. 60_exceptions.md section 1 (D13), 93_implementation_defined.md U13. -/
def Obligations.ResponseWordsReadBack : Prop :=
  (∀ r : Response, readResponse r.word = .next r) ∧
  (∀ (st : BitVec 4) (v : Val), 5 ≤ st.toNat → readResponse (st ++ v) = .fault (.reservedStatus st))

/-- The assembler refuses every operand that does not fit its field, and every command it accepts has the very numbers that were
written: nothing is truncated, in any operand of any of the nine commands. 30_encoding.md section 5 (D14). -/
def Obligations.AssemblerRefusesWhatDoesNotFit : Prop :=
  (∀ l : SrcLine, (SrcInstr.toInstr (.cfgLed l) = none ↔ 15 < l.port ∨ 15 < l.pin) ∧
    ∀ i, SrcInstr.toInstr (.cfgLed l) = some i ↔ ∃ k, SrcLine.names l k ∧ i = .cfgLed k) ∧
  (∀ n : Nat, (SrcInstr.toInstr (.cfgBtn n) = none ↔ 15 < n) ∧
    ∀ i, SrcInstr.toInstr (.cfgBtn n) = some i ↔ ∃ p : PinId, p.toNat = n ∧ i = .cfgBtn p) ∧
  (∀ h t u : SrcLine, (SrcInstr.toInstr (.cfgDisp h t u) = none ↔
      15 < h.port ∨ 15 < h.pin ∨ 15 < t.port ∨ 15 < t.pin ∨ 15 < u.port ∨ 15 < u.pin) ∧
    ∀ i, SrcInstr.toInstr (.cfgDisp h t u) = some i ↔
      ∃ a b c, SrcLine.names h a ∧ SrcLine.names t b ∧ SrcLine.names u c ∧ i = .cfgDisp a b c) ∧
  (∀ (n : Nat) (l : SrcLine), (SrcInstr.toInstr (.cfgChan n l) = none ↔ 15 < n ∨ 15 < l.port ∨ 15 < l.pin) ∧
    ∀ i, SrcInstr.toInstr (.cfgChan n l) = some i ↔
      ∃ (c : ChannelId) (k : LineId), c.toNat = n ∧ SrcLine.names l k ∧ i = .cfgChan c k) ∧
  (∀ n : Nat, (SrcInstr.toInstr (.enc n) = none ↔ 4294967295 < n) ∧
    ∀ i, SrcInstr.toInstr (.enc n) = some i ↔ ∃ v : Val, v.toNat = n ∧ i = .enc v) ∧
  (∀ n : Nat, (SrcInstr.toInstr (.xmit n) = none ↔ 4294967295 < n) ∧
    ∀ i, SrcInstr.toInstr (.xmit n) = some i ↔ ∃ v : Val, v.toNat = n ∧ i = .xmit v) ∧
  (∀ n : Nat, (SrcInstr.toInstr (.render n) = none ↔ 4294967295 < n) ∧
    ∀ i, SrcInstr.toInstr (.render n) = some i ↔ ∃ v : Val, v.toNat = n ∧ i = .render v) ∧
  SrcInstr.toInstr .rdcnt = some .rdcnt ∧
  (∀ n : Nat, (SrcInstr.toInstr (.event n) = none ↔ 15 < n) ∧
    ∀ i, SrcInstr.toInstr (.event n) = some i ↔ ∃ p : PinId, p.toNat = n ∧ i = .event p)

/-- The lines of 30_encoding.md section 5 assemble to the words its examples give, on the ports they are for; a comment, an
empty line and a line of blanks give nothing (what counts as a blank is DESIGN CHOICE, log entry 17). -/
def Obligations.AssemblerExamplesGiveTheirWords : Prop :=
  assemble "CFG_LED P0.5" = .ok (some (.bg, 0x0100000005#40)) ∧
  assemble "CFG_BTN 13" = .ok (some (.bg, 0x020000000D#40)) ∧
  assemble "CFG_DISP P1.0, P1.1, P1.2" = .ok (some (.bg, 0x0300101112#40)) ∧
  assemble "CFG_CHAN 1, P1.6" = .ok (some (.bg, 0x0400000116#40)) ∧
  assemble "ENC 7" = .ok (some (.bg, 0x1000000007#40)) ∧
  assemble "XMIT 3" = .ok (some (.bg, 0x1100000003#40)) ∧
  assemble "RENDER 5" = .ok (some (.bg, 0x1200000005#40)) ∧
  assemble "RENDER 0x3E7 ; 999" = .ok (some (.bg, 0x12000003E7#40)) ∧
  assemble "RDCNT" = .ok (some (.bg, 0x2000000000#40)) ∧
  assemble "EVENT 13" = .ok (some (.irq, 0x300000000D#40)) ∧
  assemble "CFG_BTN 16" = .error .doesNotFit ∧
  assemble "; a comment" = .ok none ∧
  assemble "" = .ok none ∧
  assemble "   " = .ok none ∧
  assemble " \t " = .ok none

/-! ### Launch premises (70_reset_and_hazards.md section 5) -/

/-- Steps 2 and 3 of the boot order, the host's: in any run from a start state whose host sends the boot words first, whatever
events fall between and however far the run has come once the four words are issued, the wiring is bound and the first four
responses are `OK`. Of step 1, the platform's, it says nothing. 70_reset_and_hazards.md section 2 (D26), 43_configuration.md
section 2. -/
def Obligations.BootWordsBindTheWiring : Prop :=
  ∀ (w : Wiring) (chanFirst : Bool) (rest : List CmdWord) (start s : State) (k : Nat), ResetState start →
    start.bgQueue = w.bootWords chanFirst ++ rest → runSteps k start = .next s → s.bgQueue.length ≤ rest.length →
      s.ledCfg = some w.led ∧ s.btnCfg = some w.btn ∧ s.dispCfg = some w.disp ∧ s.chanCfg = some w.chan ∧
      s.responses.take 4 = List.replicate 4 ⟨.ok, 0⟩

/-- The launch premise `FairRun` holds of every run: `seq_step`, once enabled, is taken after finitely many events, whatever
the choice of turns, and finitely many events are delivered. 70_reset_and_hazards.md sections 4 and 5 (D21, D39). It rests on
the events being a finite list of State (DEDUCED, log entry 19). -/
def Obligations.EveryRunIsFair : Prop := ∀ start : State, FairRun start

/-- The launch premise `BootWired`, whose step 1 is the platform's alone. A run whose host sends the boot words first meets it
once they are issued, if the platform did step 1. And wherever its steps 2 and 3 were done, each answered `OK`, with any
words of the host before, between and after them and any events, the four bindings are those of the wiring.
70_reset_and_hazards.md sections 2 and 5 (D26, D39), 43_configuration.md section 2. That other words and events may stand
between the steps is the model's reading of the premise (DEDUCED, log entry 21). -/
def Obligations.BootWiredRunsAreBound : Prop :=
  (∀ (w : Wiring) (chanFirst : Bool) (rest : List CmdWord) (start s : State) (k : Nat), ResetState start →
    start.bgQueue = w.bootWords chanFirst ++ rest → runSteps k start = .next s → s.bgQueue.length ≤ rest.length →
      BootAnswered w start s ∧ (w.platformReady → BootWired w start s)) ∧
  ∀ (w : Wiring) (start s : State), ResetState start → BootAnswered w start s →
    s.ledCfg = some w.led ∧ s.btnCfg = some w.btn ∧ s.dispCfg = some w.disp ∧ s.chanCfg = some w.chan
end

