-- ==== Sys2Proof/Laws/Decode.lean ====
section
/-! SUPPORT. The fields of a command word and of a LineId: packing and reading agree; what each port's decoder can answer. -/

namespace Sys2Proof

/-- The low field of a two-part word. -/
@[simp] theorem extract_low_append {m n : Nat} (a : BitVec m) (b : BitVec n) : (a ++ b).extractLsb' 0 n = b := by
  apply BitVec.eq_of_getLsbD_eq
  intro i hi
  simp [BitVec.getLsbD_append, hi]

/-- The high field of a two-part word. -/
@[simp] theorem extract_high_append {m n : Nat} (a : BitVec m) (b : BitVec n) : (a ++ b).extractLsb' n m = a := by
  apply BitVec.eq_of_getLsbD_eq
  intro i hi
  simp [BitVec.getLsbD_append, hi]

/-- A word is its two fields, one above the other. -/
theorem append_extract {m n : Nat} (w : BitVec (m + n)) : w.extractLsb' n m ++ w.extractLsb' 0 n = w := by
  apply BitVec.eq_of_getLsbD_eq
  intro i hi
  simp only [BitVec.getLsbD_append, BitVec.getLsbD_extractLsb']
  split
  · simp_all
  · have h : i - n < m := by omega
    simp [h, show n + (i - n) = i by omega]

@[simp] theorem LineId.ofBits_toBits (l : LineId) : LineId.ofBits l.toBits = l := by
  simp only [LineId.ofBits, LineId.toBits, extract_high_append, extract_low_append]

@[simp] theorem LineId.toBits_ofBits (b : BitVec 8) : (LineId.ofBits b).toBits = b := append_extract (m := 4) (n := 4) b

@[simp] theorem opcode_mkWord (o : BitVec 8) (d : Val) : opcode (mkWord o d) = o := extract_high_append o d

@[simp] theorem dataField_mkWord (o : BitVec 8) (d : Val) : dataField (mkWord o d) = d := extract_low_append o d

/-- A word is its opcode above its data field (30_encoding.md R70). -/
@[simp] theorem mkWord_opcode_dataField (w : CmdWord) : mkWord (opcode w) (dataField w) = w :=
  append_extract (m := 8) (n := 32) w

/-- A middle field of a three-part word. -/
theorem extract_middle_append {k m n : Nat} (a : BitVec k) (b : BitVec m) (c : BitVec n) :
    (a ++ b ++ c).extractLsb' n m = b := by
  apply BitVec.eq_of_getLsbD_eq
  intro i hi
  simp [BitVec.getLsbD_append, hi]

/-- The top field of a three-part word. -/
theorem extract_top_append {k m n : Nat} (a : BitVec k) (b : BitVec m) (c : BitVec n) :
    (a ++ b ++ c).extractLsb' (n + m) k = a := by
  apply BitVec.eq_of_getLsbD_eq
  intro i hi
  simp only [BitVec.getLsbD_extractLsb', BitVec.getLsbD_append, hi, decide_true, Bool.true_and]
  rw [if_neg (by omega), if_neg (by omega)]
  congr 1
  omega

/-- The second field of a four-part word. -/
theorem extract_second_append {j k m n : Nat} (a : BitVec j) (b : BitVec k) (c : BitVec m) (d : BitVec n) :
    (a ++ b ++ c ++ d).extractLsb' (n + m) k = b := by
  apply BitVec.eq_of_getLsbD_eq
  intro i hi
  simp only [BitVec.getLsbD_extractLsb', BitVec.getLsbD_append, hi, decide_true, Bool.true_and]
  rw [if_neg (by omega), if_neg (by omega), if_pos (by omega)]
  congr 1
  omega

/-- The top field of a four-part word. -/
theorem extract_first_append {j k m n : Nat} (a : BitVec j) (b : BitVec k) (c : BitVec m) (d : BitVec n) :
    (a ++ b ++ c ++ d).extractLsb' (n + m + k) j = a := by
  apply BitVec.eq_of_getLsbD_eq
  intro i hi
  simp only [BitVec.getLsbD_extractLsb', BitVec.getLsbD_append, hi, decide_true, Bool.true_and]
  rw [if_neg (by omega), if_neg (by omega), if_neg (by omega)]
  congr 1
  omega

/-- A word is its three fields, one above the other. -/
theorem append_extract_three {k m n : Nat} (w : BitVec (k + m + n)) :
    w.extractLsb' (n + m) k ++ w.extractLsb' n m ++ w.extractLsb' 0 n = w := by
  apply BitVec.eq_of_getLsbD_eq
  intro i hi
  simp only [BitVec.getLsbD_append, BitVec.getLsbD_extractLsb']
  by_cases h1 : i < n
  · simp [h1]
  · by_cases h2 : i - n < m
    · simp [h1, h2, show n + (i - n) = i by omega]
    · have h3 : i - n - m < k := by omega
      simp [h1, h2, h3, show n + m + (i - n - m) = i by omega]

/-- A word is its four fields, one above the other. -/
theorem append_extract_four {j k m n : Nat} (w : BitVec (j + k + m + n)) :
    w.extractLsb' (n + m + k) j ++ w.extractLsb' (n + m) k ++ w.extractLsb' n m ++ w.extractLsb' 0 n = w := by
  apply BitVec.eq_of_getLsbD_eq
  intro i hi
  simp only [BitVec.getLsbD_append, BitVec.getLsbD_extractLsb']
  by_cases h1 : i < n
  · simp [h1]
  · by_cases h2 : i - n < m
    · simp [h1, h2, show n + (i - n) = i by omega]
    · by_cases h3 : i - n - m < k
      · simp [h1, h2, h3, show n + m + (i - n - m) = i by omega]
      · have h4 : i - n - m - k < j := by omega
        simp [h1, h2, h3, h4, show n + m + k + (i - n - m - k) = i by omega]

/-! ### The `DATA` fields of each encoded command (30_encoding.md R72) -/

section
variable (l h t u : LineId) (n : PinId) (c : ChannelId)

@[simp] theorem fLine_line : (0#24 ++ l.toBits : Val).extractLsb' 0 8 = l.toBits := extract_low_append 0#24 l.toBits

@[simp] theorem fLine_zero : (0#24 ++ l.toBits : Val).extractLsb' 8 24 = 0#24 := extract_high_append 0#24 l.toBits

@[simp] theorem fPin_pin : (0#28 ++ n : Val).extractLsb' 0 4 = n := extract_low_append 0#28 n

@[simp] theorem fPin_zero : (0#28 ++ n : Val).extractLsb' 4 28 = 0#28 := extract_high_append 0#28 n

@[simp] theorem fDisp_u : (0#8 ++ h.toBits ++ t.toBits ++ u.toBits : Val).extractLsb' 0 8 = u.toBits :=
  extract_low_append (0#8 ++ h.toBits ++ t.toBits) u.toBits

@[simp] theorem fDisp_t : (0#8 ++ h.toBits ++ t.toBits ++ u.toBits : Val).extractLsb' 8 8 = t.toBits :=
  extract_middle_append (0#8 ++ h.toBits) t.toBits u.toBits

@[simp] theorem fDisp_h : (0#8 ++ h.toBits ++ t.toBits ++ u.toBits : Val).extractLsb' 16 8 = h.toBits :=
  extract_second_append 0#8 h.toBits t.toBits u.toBits

@[simp] theorem fDisp_zero : (0#8 ++ h.toBits ++ t.toBits ++ u.toBits : Val).extractLsb' 24 8 = 0#8 :=
  extract_first_append 0#8 h.toBits t.toBits u.toBits

@[simp] theorem fChan_cs : (0#20 ++ c ++ l.toBits : Val).extractLsb' 0 8 = l.toBits :=
  extract_low_append (0#20 ++ c) l.toBits

@[simp] theorem fChan_ch : (0#20 ++ c ++ l.toBits : Val).extractLsb' 8 4 = c := extract_middle_append 0#20 c l.toBits

@[simp] theorem fChan_zero : (0#20 ++ c ++ l.toBits : Val).extractLsb' 12 20 = 0#20 :=
  extract_top_append 0#20 c l.toBits

end

/-- The two halves of a LineId field, read from the data field itself (30_encoding.md R73). -/
theorem ofBits_extract (d : Val) (k : Nat) :
    LineId.ofBits (d.extractLsb' k 8) = { port := d.extractLsb' (k + 4) 4, pin := d.extractLsb' k 4 } := by
  simp only [LineId.ofBits, LineId.mk.injEq]
  constructor
  · apply BitVec.eq_of_getLsbD_eq
    intro i hi
    simp only [BitVec.getLsbD_extractLsb', hi, decide_true, Bool.true_and]
    rw [decide_eq_true (by omega), Bool.true_and]
    congr 1
    omega
  · apply BitVec.eq_of_getLsbD_eq
    intro i hi
    simp only [BitVec.getLsbD_extractLsb', hi, decide_true, Bool.true_and]
    rw [decide_eq_true (by omega), Bool.true_and]
    congr 1
    omega

/-- The BG decoder never answers `ignored` (30_encoding.md R75). -/
theorem decodeBg_ne_ignored (w : CmdWord) : decodeBg w ≠ .ignored := by
  unfold decodeBg
  dsimp only
  repeat' split
  all_goals simp

/-- The IRQ decoder answers an `EVENT` or `ignored`, nothing else (30_encoding.md R75, R78). -/
theorem decodeIrq_cases (w : CmdWord) : decodeIrq w = .ignored ∨ ∃ n, decodeIrq w = .instr (.event n) := by
  unfold decodeIrq
  dsimp only
  split
  · exact .inr ⟨_, rfl⟩
  · exact .inl rfl

/-- The BG decoder never reads an `EVENT` (30_encoding.md R76: it is not accepted from BG). -/
theorem decodeBg_ne_event (w : CmdWord) (n : PinId) : decodeBg w ≠ .instr (.event n) := by
  unfold decodeBg
  dsimp only
  repeat' split
  all_goals simp

end Sys2Proof
end

