-- ==== Sys2Proof/Laws/Lines.lean ====
section
/-! SUPPORT. Line levels, action by action (10_state.md R32, R33). -/

namespace Sys2Proof.Machine

@[simp] theorem Level.other_other (v : Level) : Level.other (Level.other v) = v := by cases v <;> rfl

@[simp] theorem levelFrom_nil (v : Option Level) (l : LineId) : levelFrom v l [] = v := rfl

@[simp] theorem levelFrom_cons (v : Option Level) (l : LineId) (a : Action) (as : List Action) :
    levelFrom v l (a :: as) = levelFrom (levelStep l v a) l as := rfl

/-- The level after two lists of actions, one after the other. -/
@[simp] theorem levelFrom_append (v : Option Level) (l : LineId) (as bs : List Action) :
    levelFrom v l (as ++ bs) = levelFrom (levelFrom v l as) l bs := List.foldl_append

/-- The level of a line after more actions on the trace starts from its level before them. -/
theorem State.lineLevel_append {s t : State} {as : List Action} (h : t.trace = s.trace ++ as) (l : LineId) :
    t.lineLevel l = levelFrom (s.lineLevel l) l as := by
  unfold State.lineLevel
  rw [h, levelFrom_append]

/-- One toggle more flips the level once more. -/
theorem levelAfterToggles_succ (v : Level) (n : Nat) :
    levelAfterToggles v (n + 1) = Level.other (levelAfterToggles v n) := by
  unfold levelAfterToggles
  obtain h | h := Nat.mod_two_eq_zero_or_one n
  · rw [if_neg (by omega), if_pos h]
  · rw [if_pos (by omega), if_neg (by omega), Level.other_other]

end Sys2Proof.Machine
end

