-- ==== Sys2Proof/Laws/Memory.lean ====
section
/-! SUPPORT. The segment ROM: reading it, its canonical form, and the ROM that holds a given table. The block has no
operation that writes it (20_memory.md R50), so the only operation that makes one is `Memory.ofTable`. -/

namespace Sys2Proof.Machine

/-- With nothing listed, every entry reads as the default table's (40_segment_encoder.md R101). -/
@[simp] theorem Memory.read_nil (i : Digit) : Memory.read [] i = defaultSegTable i := rfl

/-- The ROM at reset is in canonical form. -/
@[simp] theorem Memory.wf_nil : Memory.wf [] = true := rfl

/-- One entry of the cells of a table. -/
theorem Memory.lookup_cells (t : Digit → Byte) (l : List Digit) (i : Digit) :
    List.lookup i.val
        (l.filterMap fun d => if t d = defaultSegTable d then none else some (d.val, t d)) =
      if i ∈ l ∧ t i ≠ defaultSegTable i then some (t i) else none := by
  induction l with
  | nil => simp
  | cons d rest ih =>
    simp only [List.filterMap_cons]
    by_cases hd : t d = defaultSegTable d
    · simp only [hd, if_true, ih, List.mem_cons]
      by_cases hi : i = d
      · subst hi; simp [hd]
      · simp [hi]
    · simp only [hd, if_false, List.lookup_cons]
      by_cases hi : i = d
      · subst hi; simp [hd]
      · have : (i.val == d.val) = false := by simpa [Fin.ext_iff] using hi
        simp [this, ih, hi]

/-- The ROM of a table reads as that table: every `SEG_TABLE` is the contents of some ROM (R101). -/
theorem Memory.read_ofTable (t : Digit → Byte) (i : Digit) : Memory.read (Memory.ofTable t) i = t i := by
  unfold Memory.read Memory.ofTable
  rw [Memory.lookup_cells]
  by_cases h : t i = defaultSegTable i <;> simp [h]

/-- Cells that rise above a bound after one at the bound rise together. -/
theorem Memory.rising_cons (c : Host.Cell) (m : Memory) (h : ∀ d ∈ m, c.1 < d.1) (hm : Memory.rising m = true) :
    Memory.rising (c :: m) = true := by
  cases m with
  | nil => rfl
  | cons d rest => simp [Memory.rising, h d (by simp), hm]

/-- The cells of a rising list of indexes rise. -/
theorem Memory.rising_cells (t : Digit → Byte) (l : List Digit) (hl : l.Pairwise (· < ·)) :
    Memory.rising (l.filterMap fun d => if t d = defaultSegTable d then none else some (d.val, t d)) = true := by
  induction hl with
  | nil => rfl
  | @cons d rest hd _ ih =>
    rw [List.filterMap_cons]
    by_cases h : t d = defaultSegTable d
    · simpa [h] using ih
    · simp only [h, if_false]
      apply Memory.rising_cons _ _ _ ih
      intro c hc
      simp only [List.mem_filterMap] at hc
      obtain ⟨e, he, hc⟩ := hc
      split at hc
      · simp at hc
      · obtain rfl := Option.some.inj hc
        exact hd e he

/-- The ROM of a table is in canonical form. -/
theorem Memory.wf_ofTable (t : Digit → Byte) : Memory.wf (Memory.ofTable t) = true := by
  unfold Memory.wf Memory.ofTable
  rw [Memory.rising_cells t _ (List.pairwise_lt_finRange 10), Bool.true_and, List.all_eq_true]
  intro c hc
  simp only [List.mem_filterMap] at hc
  obtain ⟨d, -, hc⟩ := hc
  split at hc
  · simp at hc
  · obtain rfl := Option.some.inj hc
    simp_all [Memory.cellOk]

/-- The digit of a digit's value is itself: the transmit step's own `mod 10` leaves it unchanged (41_digit_multiplexer.md
R125). -/
@[simp] theorem lastDigit_digitVal (d : Digit) : lastDigit (digitVal d) = d := by
  have h := d.isLt
  apply Fin.ext
  simp only [lastDigit, digitVal, Fin.val_ofNat, BitVec.toNat_ofNat]
  omega

/-- The byte sent for a digit is its entry of the table (R125). -/
@[simp] theorem segEncode_digitVal (rom : Memory) (d : Digit) : segEncode rom (digitVal d) = rom.read d := by
  unfold segEncode
  rw [lastDigit_digitVal]

end Sys2Proof.Machine
end

