-- ==== Sys2Proof/Laws/State.lean ====
section
/-! SUPPORT. One lemma per field per update of State, true by rfl: no later proof unfolds a record update. -/

namespace Sys2Proof.Machine

section
variable (s : State) (a : Action)

@[simp] theorem State.emit_counter : (s.emit a).counter = s.counter := rfl
@[simp] theorem State.emit_ledCfg : (s.emit a).ledCfg = s.ledCfg := rfl
@[simp] theorem State.emit_btnCfg : (s.emit a).btnCfg = s.btnCfg := rfl
@[simp] theorem State.emit_dispCfg : (s.emit a).dispCfg = s.dispCfg := rfl
@[simp] theorem State.emit_chanCfg : (s.emit a).chanCfg = s.chanCfg := rfl
@[simp] theorem State.emit_seq : (s.emit a).seq = s.seq := rfl
@[simp] theorem State.emit_trace : (s.emit a).trace = s.trace ++ [a] := rfl
@[simp] theorem State.emit_pending : (s.emit a).pending = s.pending := rfl
@[simp] theorem State.emit_responses : (s.emit a).responses = s.responses := rfl
@[simp] theorem State.emit_segRom : (s.emit a).segRom = s.segRom := rfl
@[simp] theorem State.emit_params : (s.emit a).params = s.params := rfl
@[simp] theorem State.emit_bgQueue : (s.emit a).bgQueue = s.bgQueue := rfl
@[simp] theorem State.emit_irqQueue : (s.emit a).irqQueue = s.irqQueue := rfl
@[simp] theorem State.emit_turns : (s.emit a).turns = s.turns := rfl
@[simp] theorem State.emit_draws : (s.emit a).draws = s.draws := rfl
@[simp] theorem State.emit_freeIx : (s.emit a).freeIx = s.freeIx := rfl

end

section
variable (s : State) (st : Status) (v : Val)

@[simp] theorem State.respond_counter : (s.respond st v).counter = s.counter := rfl
@[simp] theorem State.respond_ledCfg : (s.respond st v).ledCfg = s.ledCfg := rfl
@[simp] theorem State.respond_btnCfg : (s.respond st v).btnCfg = s.btnCfg := rfl
@[simp] theorem State.respond_dispCfg : (s.respond st v).dispCfg = s.dispCfg := rfl
@[simp] theorem State.respond_chanCfg : (s.respond st v).chanCfg = s.chanCfg := rfl
@[simp] theorem State.respond_seq : (s.respond st v).seq = s.seq := rfl
@[simp] theorem State.respond_trace : (s.respond st v).trace = s.trace := rfl
@[simp] theorem State.respond_pending : (s.respond st v).pending = false := rfl
@[simp] theorem State.respond_responses : (s.respond st v).responses = s.responses ++ [⟨st, v⟩] := rfl
@[simp] theorem State.respond_segRom : (s.respond st v).segRom = s.segRom := rfl
@[simp] theorem State.respond_params : (s.respond st v).params = s.params := rfl
@[simp] theorem State.respond_bgQueue : (s.respond st v).bgQueue = s.bgQueue := rfl
@[simp] theorem State.respond_irqQueue : (s.respond st v).irqQueue = s.irqQueue := rfl
@[simp] theorem State.respond_turns : (s.respond st v).turns = s.turns := rfl
@[simp] theorem State.respond_draws : (s.respond st v).draws = s.draws := rfl
@[simp] theorem State.respond_freeIx : (s.respond st v).freeIx = s.freeIx := rfl

end

section
variable (s : State) (st : Status)

@[simp] theorem State.raise_counter : (s.raise st).counter = s.counter := rfl
@[simp] theorem State.raise_ledCfg : (s.raise st).ledCfg = s.ledCfg := rfl
@[simp] theorem State.raise_btnCfg : (s.raise st).btnCfg = s.btnCfg := rfl
@[simp] theorem State.raise_dispCfg : (s.raise st).dispCfg = s.dispCfg := rfl
@[simp] theorem State.raise_chanCfg : (s.raise st).chanCfg = s.chanCfg := rfl
@[simp] theorem State.raise_seq : (s.raise st).seq = s.seq := rfl
@[simp] theorem State.raise_trace : (s.raise st).trace = s.trace := rfl
@[simp] theorem State.raise_pending : (s.raise st).pending = false := rfl
@[simp] theorem State.raise_responses : (s.raise st).responses = s.responses ++ [⟨st, 0⟩] := rfl
@[simp] theorem State.raise_segRom : (s.raise st).segRom = s.segRom := rfl
@[simp] theorem State.raise_params : (s.raise st).params = s.params := rfl
@[simp] theorem State.raise_bgQueue : (s.raise st).bgQueue = s.bgQueue := rfl
@[simp] theorem State.raise_irqQueue : (s.raise st).irqQueue = s.irqQueue := rfl
@[simp] theorem State.raise_turns : (s.raise st).turns = s.turns := rfl
@[simp] theorem State.raise_draws : (s.raise st).draws = s.draws := rfl
@[simp] theorem State.raise_freeIx : (s.raise st).freeIx = s.freeIx := rfl

end

section
variable (s : State) (j : Job)

@[simp] theorem State.startJob_counter : (s.startJob j).counter = s.counter := rfl
@[simp] theorem State.startJob_ledCfg : (s.startJob j).ledCfg = s.ledCfg := rfl
@[simp] theorem State.startJob_btnCfg : (s.startJob j).btnCfg = s.btnCfg := rfl
@[simp] theorem State.startJob_dispCfg : (s.startJob j).dispCfg = s.dispCfg := rfl
@[simp] theorem State.startJob_chanCfg : (s.startJob j).chanCfg = s.chanCfg := rfl
@[simp] theorem State.startJob_seq : (s.startJob j).seq = .busy j := rfl
@[simp] theorem State.startJob_trace : (s.startJob j).trace = s.trace := rfl
@[simp] theorem State.startJob_pending : (s.startJob j).pending = true := rfl
@[simp] theorem State.startJob_responses : (s.startJob j).responses = s.responses := rfl
@[simp] theorem State.startJob_segRom : (s.startJob j).segRom = s.segRom := rfl
@[simp] theorem State.startJob_params : (s.startJob j).params = s.params := rfl
@[simp] theorem State.startJob_bgQueue : (s.startJob j).bgQueue = s.bgQueue := rfl
@[simp] theorem State.startJob_irqQueue : (s.startJob j).irqQueue = s.irqQueue := rfl
@[simp] theorem State.startJob_turns : (s.startJob j).turns = s.turns := rfl
@[simp] theorem State.startJob_draws : (s.startJob j).draws = s.draws := rfl
@[simp] theorem State.startJob_freeIx : (s.startJob j).freeIx = s.freeIx := rfl

end

section
variable (s : State) (j : Job)

@[simp] theorem State.continueJob_counter : (s.continueJob j).counter = s.counter := rfl
@[simp] theorem State.continueJob_ledCfg : (s.continueJob j).ledCfg = s.ledCfg := rfl
@[simp] theorem State.continueJob_btnCfg : (s.continueJob j).btnCfg = s.btnCfg := rfl
@[simp] theorem State.continueJob_dispCfg : (s.continueJob j).dispCfg = s.dispCfg := rfl
@[simp] theorem State.continueJob_chanCfg : (s.continueJob j).chanCfg = s.chanCfg := rfl
@[simp] theorem State.continueJob_seq : (s.continueJob j).seq = .busy j := rfl
@[simp] theorem State.continueJob_trace : (s.continueJob j).trace = s.trace := rfl
@[simp] theorem State.continueJob_pending : (s.continueJob j).pending = s.pending := rfl
@[simp] theorem State.continueJob_responses : (s.continueJob j).responses = s.responses := rfl
@[simp] theorem State.continueJob_segRom : (s.continueJob j).segRom = s.segRom := rfl
@[simp] theorem State.continueJob_params : (s.continueJob j).params = s.params := rfl
@[simp] theorem State.continueJob_bgQueue : (s.continueJob j).bgQueue = s.bgQueue := rfl
@[simp] theorem State.continueJob_irqQueue : (s.continueJob j).irqQueue = s.irqQueue := rfl
@[simp] theorem State.continueJob_turns : (s.continueJob j).turns = s.turns := rfl
@[simp] theorem State.continueJob_draws : (s.continueJob j).draws = s.draws := rfl
@[simp] theorem State.continueJob_freeIx : (s.continueJob j).freeIx = s.freeIx := rfl

end

section
variable (s : State) (j : Job)

@[simp] theorem State.finishJob_counter : (s.finishJob j).counter = s.counter := rfl
@[simp] theorem State.finishJob_ledCfg : (s.finishJob j).ledCfg = s.ledCfg := rfl
@[simp] theorem State.finishJob_btnCfg : (s.finishJob j).btnCfg = s.btnCfg := rfl
@[simp] theorem State.finishJob_dispCfg : (s.finishJob j).dispCfg = s.dispCfg := rfl
@[simp] theorem State.finishJob_chanCfg : (s.finishJob j).chanCfg = s.chanCfg := rfl
@[simp] theorem State.finishJob_seq : (s.finishJob j).seq = .idle := rfl
@[simp] theorem State.finishJob_trace : (s.finishJob j).trace = s.trace := rfl
@[simp] theorem State.finishJob_pending : (s.finishJob j).pending = false := rfl
@[simp] theorem State.finishJob_responses : (s.finishJob j).responses = s.responses ++ [⟨if j.failed then .transmitFailed else .ok, 0⟩] := rfl
@[simp] theorem State.finishJob_segRom : (s.finishJob j).segRom = s.segRom := rfl
@[simp] theorem State.finishJob_params : (s.finishJob j).params = s.params := rfl
@[simp] theorem State.finishJob_bgQueue : (s.finishJob j).bgQueue = s.bgQueue := rfl
@[simp] theorem State.finishJob_irqQueue : (s.finishJob j).irqQueue = s.irqQueue := rfl
@[simp] theorem State.finishJob_turns : (s.finishJob j).turns = s.turns := rfl
@[simp] theorem State.finishJob_draws : (s.finishJob j).draws = s.draws := rfl
@[simp] theorem State.finishJob_freeIx : (s.finishJob j).freeIx = s.freeIx := rfl

end

end Sys2Proof.Machine
end

