-- ==== Sys2Proof/Laws/Ops.lean ====
section
/-! SUPPORT. One lemma per shared operation that says everything it can do, and one per meaning that says what its next
state is. -/

namespace Sys2Proof.Machine

/-- A draw changes `draws` and `freeIx` only. -/
theorem State.takeDraw_spec (s : State) :
    ∃ ds n, s.takeDraw.2 = { s with draws := ds, freeIx := n } := by
  unfold State.takeDraw
  split
  · exact ⟨_, s.freeIx, rfl⟩
  · exact ⟨s.draws, _, rfl⟩

/-- A turn changes `turns` and `freeIx` only. -/
theorem State.takeTurn_spec (s : State) :
    ∃ ts n, s.takeTurn.2 = { s with turns := ts, freeIx := n } := by
  unfold State.takeTurn
  split
  · exact ⟨_, s.freeIx, rfl⟩
  · exact ⟨s.turns, _, rfl⟩

/-- A configuration command either binds and answers `OK`, or changes nothing but the responses (43_configuration.md R194). -/
theorem State.bindOnce_cases {α : Type} (s : State) (cur : Option α) (bound : State) :
    (cur = none ∧ s.bindOnce cur bound = bound.respond .ok 0) ∨
      (∃ x, cur = some x ∧ s.bindOnce cur bound = s.raise .alreadyConfigured) := by
  cases cur with
  | none => exact .inl ⟨rfl, rfl⟩
  | some x => exact .inr ⟨x, rfl, rfl⟩

/-- The counter after a qualifying event is in range, whatever it was (42_counter_event.md R162, R172). -/
theorem nextCount_le (c : Nat) : nextCount c ≤ Config.countMax := by
  unfold nextCount
  split <;> omega

/-- The counter after a qualifying event, from one in range (R163). -/
theorem nextCount_eq_mod (c : Nat) (h : c ≤ Config.countMax) : nextCount c = (c + 1) % 1000 := by
  unfold nextCount
  simp only [Config.countMax] at *
  split <;> omega

/-- A counter in range fits every `WORD_BITS` a run may take (00_scope.md R10, D2). -/
theorem lt_two_pow_wordBits {c n : Nat} (h : c ≤ Config.countMax) (hn : Config.minWordBits ≤ n) : c < 2 ^ n := by
  have : 2 ^ 10 ≤ 2 ^ n := Nat.pow_le_pow_right (by omega) hn
  simp only [Config.countMax] at h
  omega

/-- The 32-bit value of a counter that fits it is the counter. -/
theorem counterVal_toNat {c : Nat} (h : c < 2 ^ 32) : (counterVal c).toNat = c := by
  simpa [counterVal] using h

/-- Toggling the LED appends at most one `TOGGLE` of the bound LED line, and changes nothing else (R161, R165). -/
theorem State.toggleLed_spec (s : State) :
    (s.ledCfg = none ∧ s.toggleLed = s) ∨ ∃ l, s.ledCfg = some l ∧ s.toggleLed = s.emit (.toggle l) := by
  unfold State.toggleLed
  cases h : s.ledCfg with
  | none => exact .inl ⟨rfl, rfl⟩
  | some l => exact .inr ⟨l, rfl, rfl⟩

/-- What an event does (R161): nothing where it does not qualify; else the LED's toggle and the counter. -/
theorem execEvent_cases {pin : PinId} {s t : State} (h : execEvent pin s = .next t) :
    (s.btnCfg ≠ some pin ∧ t = s) ∨
      (s.btnCfg = some pin ∧ t = { s.toggleLed with counter := nextCount s.counter }) := by
  unfold execEvent at h
  simp only [State.qualifies, beq_iff_eq] at h
  split at h
  · next hq => exact .inr ⟨hq, (Host.Outcome.next.inj h).symm⟩
  · next hq => exact .inl ⟨hq, (Host.Outcome.next.inj h).symm⟩

/-- What a `RENDER` issue step does (41_digit_multiplexer.md R124, R129). -/
theorem execRender_cases {v : Val} {s t : State} (h : execRender v s = .next t) :
    (∃ d c, s.dispCfg = some d ∧ s.chanCfg = some c ∧ t = s.startJob (renderJob d c v)) ∨
      ((s.dispCfg = none ∨ s.chanCfg = none) ∧ t = s.raise .notConfigured) := by
  unfold execRender at h
  cases hd : s.dispCfg <;> cases hc : s.chanCfg <;> simp only [hd, hc] at h <;>
    first
      | exact .inr ⟨by simp, (Host.Outcome.next.inj h).symm⟩
      | exact .inl ⟨_, _, rfl, rfl, (Host.Outcome.next.inj h).symm⟩

/-- What an `XMIT` issue step does (R130). -/
theorem execXmit_cases {v : Val} {s t : State} (h : execXmit v s = .next t) :
    (∃ c, s.chanCfg = some c ∧ t = s.startJob (xmitJob c v)) ∨ (s.chanCfg = none ∧ t = s.raise .notConfigured) := by
  unfold execXmit at h
  cases hc : s.chanCfg <;> simp only [hc] at h
  · exact .inr ⟨rfl, (Host.Outcome.next.inj h).symm⟩
  · exact .inl ⟨_, rfl, (Host.Outcome.next.inj h).symm⟩

/-- The draw of a sequencer step: nothing in an infallible run, and none but at phase 2 (R126, R132). -/
theorem seqDraw_cases (j : Job) (s : State) :
    (j.phase = 2 ∧ s.params.transmitFallible = true ∧
        seqDraw j s = ({ j with failed := j.failed || s.takeDraw.1 }, s.takeDraw.2)) ∨
      ((j.phase ≠ 2 ∨ s.params.transmitFallible = false) ∧ seqDraw j s = (j, s)) := by
  unfold seqDraw
  split
  · next h => exact .inl ⟨h.1, h.2, rfl⟩
  · next h =>
    refine .inr ⟨?_, rfl⟩
    by_cases hp : j.phase = 2
    · exact .inr (by simpa [hp] using h)
    · exact .inl hp

/-- The five ways a sequencer step advances (R126). -/
theorem seqAdvance_cases (j : Job) (s : State) :
    (j.kind = .xmit ∧ j.phase = 3 ∧ seqAdvance j s = s.finishJob j) ∨
      (j.kind = .render ∧ j.phase = 3 ∧ j.failed = true ∧ seqAdvance j s = s.continueJob { j with phase := 5 }) ∨
      (j.phase = 5 ∧ (j.failed = true ∨ j.slot = 2) ∧ seqAdvance j s = s.finishJob j) ∨
      (j.phase = 5 ∧ j.failed = false ∧ j.slot ≠ 2 ∧
        seqAdvance j s = s.continueJob { j with slot := j.slot + 1, phase := 0 }) ∨
      (j.phase ≠ 5 ∧ (j.phase = 3 → j.kind = .render ∧ j.failed = false) ∧
        seqAdvance j s = s.continueJob { j with phase := j.phase + 1 }) := by
  unfold seqAdvance
  split
  · next h => exact .inl ⟨h.1, h.2, rfl⟩
  · next h1 =>
    split
    · next h =>
      refine .inr (.inl ⟨?_, h.1, h.2, rfl⟩)
      cases hk : j.kind with
      | render => rfl
      | xmit => exact absurd ⟨hk, h.1⟩ h1
    · next h2 =>
      split
      · next h => exact .inr (.inr (.inl ⟨h.1, h.2, rfl⟩))
      · next h3 =>
        split
        · next h =>
          refine .inr (.inr (.inr (.inl ⟨h, ?_, ?_, rfl⟩)))
          · cases hf : j.failed with
            | false => rfl
            | true => exact absurd ⟨h, .inl hf⟩ h3
          · exact fun hs => h3 ⟨h, .inr hs⟩
        · next h4 =>
          refine .inr (.inr (.inr (.inr ⟨h4, ?_, rfl⟩)))
          intro h5
          constructor
          · cases hk : j.kind with
            | render => rfl
            | xmit => exact absurd ⟨hk, h5⟩ h1
          · cases hf : j.failed with
            | false => rfl
            | true => exact absurd ⟨h5, hf⟩ h2

/-- What every command issued on BG leaves unchanged, and what it does to the responses: it answers at once, or starts a
job and answers later. Bindings that were set stay as they were. -/
theorem execBg_frame {i : Instr} {s t : State} (hp : i.port = .bg) (h : exec i s = .next t) :
    t.counter = s.counter ∧ t.trace = s.trace ∧ t.segRom = s.segRom ∧ t.params = s.params ∧
      t.bgQueue = s.bgQueue ∧ t.irqQueue = s.irqQueue ∧ t.turns = s.turns ∧ t.draws = s.draws ∧ t.freeIx = s.freeIx ∧
      (∀ x, s.ledCfg = some x → t.ledCfg = some x) ∧ (∀ x, s.btnCfg = some x → t.btnCfg = some x) ∧
      (∀ x, s.dispCfg = some x → t.dispCfg = some x) ∧ (∀ x, s.chanCfg = some x → t.chanCfg = some x) ∧
      ((t.seq = s.seq ∧ t.pending = false ∧ ∃ r, t.responses = s.responses ++ [r] ∧ r.status ≠ .transmitFailed) ∨
        (∃ j, t.seq = .busy j ∧ t.pending = true ∧ t.responses = s.responses ∧ t.dispCfg = s.dispCfg ∧
          t.chanCfg = s.chanCfg)) := by
  have bind : ∀ {α : Type} (cur : Option α) (bound : State),
      bound.seq = s.seq → bound.responses = s.responses →
      ((s.bindOnce cur bound).seq = s.seq ∧ (s.bindOnce cur bound).pending = false ∧
        ∃ r, (s.bindOnce cur bound).responses = s.responses ++ [r] ∧ r.status ≠ .transmitFailed) := by
    intro α cur bound h1 h2
    obtain ⟨-, h⟩ | ⟨x, -, h⟩ := s.bindOnce_cases cur bound <;> rw [h]
    · exact ⟨by simpa using h1, by simp, ⟨.ok, 0⟩, by simp [h2], by simp⟩
    · exact ⟨by simp, by simp, ⟨.alreadyConfigured, 0⟩, by simp, by simp⟩
  cases i with
  | event n => simp [Instr.port] at hp
  | enc v =>
    obtain rfl := (Host.Outcome.next.inj h).symm
    refine ⟨rfl, rfl, rfl, rfl, rfl, rfl, rfl, rfl, rfl, ?_, ?_, ?_, ?_, .inl ⟨rfl, rfl, _, rfl, by simp⟩⟩ <;> simp
  | rdcnt =>
    obtain rfl := (Host.Outcome.next.inj h).symm
    refine ⟨rfl, rfl, rfl, rfl, rfl, rfl, rfl, rfl, rfl, ?_, ?_, ?_, ?_, .inl ⟨rfl, rfl, _, rfl, by simp⟩⟩ <;> simp
  | xmit v =>
    obtain ⟨c, hc, rfl⟩ | ⟨hc, rfl⟩ := execXmit_cases h
    · refine ⟨rfl, rfl, rfl, rfl, rfl, rfl, rfl, rfl, rfl, ?_, ?_, ?_, ?_, .inr ⟨_, rfl, rfl, rfl, rfl, rfl⟩⟩ <;> simp
    · refine ⟨rfl, rfl, rfl, rfl, rfl, rfl, rfl, rfl, rfl, ?_, ?_, ?_, ?_, .inl ⟨rfl, rfl, _, rfl, by simp⟩⟩ <;> simp
  | render v =>
    obtain ⟨d, c, hd, hc, rfl⟩ | ⟨hc, rfl⟩ := execRender_cases h
    · refine ⟨rfl, rfl, rfl, rfl, rfl, rfl, rfl, rfl, rfl, ?_, ?_, ?_, ?_, .inr ⟨_, rfl, rfl, rfl, rfl, rfl⟩⟩ <;> simp
    · refine ⟨rfl, rfl, rfl, rfl, rfl, rfl, rfl, rfl, rfl, ?_, ?_, ?_, ?_, .inl ⟨rfl, rfl, _, rfl, by simp⟩⟩ <;> simp
  | cfgLed l =>
    obtain rfl := (Host.Outcome.next.inj h).symm
    have hb := bind s.ledCfg { s with ledCfg := some l } rfl rfl
    obtain ⟨hn, h⟩ | ⟨x, hx, h⟩ := s.bindOnce_cases s.ledCfg { s with ledCfg := some l } <;> rw [h] at hb ⊢ <;>
      refine ⟨rfl, rfl, rfl, rfl, rfl, rfl, rfl, rfl, rfl, ?_, ?_, ?_, ?_, .inl hb⟩ <;> simp_all
  | cfgBtn l =>
    obtain rfl := (Host.Outcome.next.inj h).symm
    have hb := bind s.btnCfg { s with btnCfg := some l } rfl rfl
    obtain ⟨hn, h⟩ | ⟨x, hx, h⟩ := s.bindOnce_cases s.btnCfg { s with btnCfg := some l } <;> rw [h] at hb ⊢ <;>
      refine ⟨rfl, rfl, rfl, rfl, rfl, rfl, rfl, rfl, rfl, ?_, ?_, ?_, ?_, .inl hb⟩ <;> simp_all
  | cfgDisp a b c =>
    obtain rfl := (Host.Outcome.next.inj h).symm
    have hb := bind s.dispCfg { s with dispCfg := some ⟨a, b, c⟩ } rfl rfl
    obtain ⟨hn, h⟩ | ⟨x, hx, h⟩ := s.bindOnce_cases s.dispCfg { s with dispCfg := some ⟨a, b, c⟩ } <;>
      rw [h] at hb ⊢ <;>
      refine ⟨rfl, rfl, rfl, rfl, rfl, rfl, rfl, rfl, rfl, ?_, ?_, ?_, ?_, .inl hb⟩ <;> simp_all
  | cfgChan a b =>
    obtain rfl := (Host.Outcome.next.inj h).symm
    have hb := bind s.chanCfg { s with chanCfg := some ⟨a, b⟩ } rfl rfl
    obtain ⟨hn, h⟩ | ⟨x, hx, h⟩ := s.bindOnce_cases s.chanCfg { s with chanCfg := some ⟨a, b⟩ } <;> rw [h] at hb ⊢ <;>
      refine ⟨rfl, rfl, rfl, rfl, rfl, rfl, rfl, rfl, rfl, ?_, ?_, ?_, ?_, .inl hb⟩ <;> simp_all

end Sys2Proof.Machine
end

