-- ==== Sys2Proof/Laws/PerInstr.lean ====
section
/-! SUPPORT. Statements made of every instruction, one lemma per constructor of Instr. -/

namespace Sys2Proof.Laws

/-! ### FitsRow: the word of an instruction matches its row of the opcode map, reserved bits included (30_encoding.md R74) -/

/-- The encoded word, under the row's mask, is the row's match value. -/
def FitsRow.Statement (i : Instr) : Prop := encode i &&& i.row.mask = i.row.pattern

/-- A word whose mask keeps the opcode and a part of the data field: the two parts are compared apart. -/
theorem FitsRow.split (o oMask oPat : BitVec 8) (d dMask dPat : Val) (ho : o &&& oMask = oPat) (hd : d &&& dMask = dPat) :
    mkWord o d &&& mkWord oMask dMask = mkWord oPat dPat := by
  subst ho hd
  apply BitVec.eq_of_getLsbD_eq
  intro i hi
  simp only [mkWord, BitVec.getLsbD_and, BitVec.getLsbD_append]
  split <;> rfl

/-- A data field with zeros above a field of `n` bits keeps nothing under a mask of that upper part. -/
theorem FitsRow.upper_zero {m n : Nat} (x : BitVec n) (mask : BitVec m) :
    (0#m ++ x) &&& (mask ++ 0#n) = 0#(m + n) := by
  apply BitVec.eq_of_getLsbD_eq
  intro i hi
  simp only [BitVec.getLsbD_and, BitVec.getLsbD_append]
  split <;> simp

theorem FitsRow.cfgLed (l : LineId) : FitsRow.Statement (.cfgLed l) :=
  FitsRow.split 0x01#8 0xFF#8 0x01#8 _ 0xFFFFFF00#32 0#32 (by decide) (FitsRow.upper_zero (m := 24) l.toBits 0xFFFFFF#24)

theorem FitsRow.cfgBtn (n : PinId) : FitsRow.Statement (.cfgBtn n) :=
  FitsRow.split 0x02#8 0xFF#8 0x02#8 _ 0xFFFFFFF0#32 0#32 (by decide) (FitsRow.upper_zero (m := 28) n 0xFFFFFFF#28)

theorem FitsRow.cfgDisp (h t u : LineId) : FitsRow.Statement (.cfgDisp h t u) :=
  FitsRow.split 0x03#8 0xFF#8 0x03#8 _ 0xFF000000#32 0#32 (by decide) (by
    have := FitsRow.upper_zero (m := 8) (h.toBits ++ t.toBits ++ u.toBits) 0xFF#8
    rw [← this]
    congr 1
    apply BitVec.eq_of_getLsbD_eq
    intro i hi
    simp only [BitVec.getLsbD_append]
    repeat' split
    all_goals first | rfl | omega)

theorem FitsRow.cfgChan (c : ChannelId) (l : LineId) : FitsRow.Statement (.cfgChan c l) :=
  FitsRow.split 0x04#8 0xFF#8 0x04#8 _ 0xFFFFF000#32 0#32 (by decide) (by
    have := FitsRow.upper_zero (m := 20) (c ++ l.toBits) 0xFFFFF#20
    rw [← this]
    congr 1
    apply BitVec.eq_of_getLsbD_eq
    intro i hi
    simp only [BitVec.getLsbD_append]
    repeat' split
    all_goals first | rfl | omega)

theorem FitsRow.enc (v : Val) : FitsRow.Statement (.enc v) :=
  FitsRow.split 0x10#8 0xFF#8 0x10#8 v 0#32 0#32 (by decide) (by simp)

theorem FitsRow.xmit (v : Val) : FitsRow.Statement (.xmit v) :=
  FitsRow.split 0x11#8 0xFF#8 0x11#8 v 0#32 0#32 (by decide) (by simp)

theorem FitsRow.render (v : Val) : FitsRow.Statement (.render v) :=
  FitsRow.split 0x12#8 0xFF#8 0x12#8 v 0#32 0#32 (by decide) (by simp)

theorem FitsRow.rdcnt : FitsRow.Statement .rdcnt := by
  unfold FitsRow.Statement
  decide

theorem FitsRow.event (n : PinId) : FitsRow.Statement (.event n) :=
  FitsRow.split 0x30#8 0xFF#8 0x30#8 _ 0xFFFFFFF0#32 0#32 (by decide) (FitsRow.upper_zero (m := 28) n 0xFFFFFFF#28)

end Sys2Proof.Laws
end

