-- ==== Sys2Proof/Laws/Step.lean ====
section
/-! SUPPORT. What a step can do, said once: the inversion lemmas of the sequencer step, of the two ports, and of `step`. -/

namespace Sys2Proof.Machine

/-- A sequencer step emits its one action, possibly draws, and advances; the job is marked failed only by a draw at phase 2
of a fallible run (41_digit_multiplexer.md R126, R132). -/
theorem seqStep_spec (j : Job) (s : State) :
    ∃ f ds n, seqStep j s = seqAdvance { j with failed := f }
        { s with trace := s.trace ++ [seqAction s.params s.segRom j], draws := ds, freeIx := n } ∧
      (f = j.failed ∨ (f = true ∧ j.phase = 2 ∧ s.params.transmitFallible = true)) := by
  unfold seqStep
  obtain ⟨hp, hf, h⟩ | ⟨-, h⟩ := seqDraw_cases j (s.emit (seqAction s.params s.segRom j))
  · obtain ⟨ds, n, hd⟩ := (s.emit (seqAction s.params s.segRom j)).takeDraw_spec
    dsimp only
    rw [h]
    refine ⟨_, ds, n, by rw [hd]; rfl, ?_⟩
    cases (s.emit (seqAction s.params s.segRom j)).takeDraw.1
    · exact .inl (by simp)
    · exact .inr ⟨by simp, hp, hf⟩
  · dsimp only
    rw [h]
    exact ⟨j.failed, s.draws, s.freeIx, rfl, .inl rfl⟩

/-- In an infallible run a sequencer step emits its action and advances, nothing else. -/
theorem seqStep_infallible (j : Job) (s : State) (h : s.params.transmitFallible = false) :
    seqStep j s = seqAdvance j (s.emit (seqAction s.params s.segRom j)) := by
  unfold seqStep
  obtain ⟨-, hf, -⟩ | ⟨-, hd⟩ := seqDraw_cases j (s.emit (seqAction s.params s.segRom j))
  · simp [h] at hf
  · dsimp only
    rw [hd]

/-- A draw's result and the choices it leaves do not depend on the counter or the trace. -/
theorem State.takeDraw_withTrace (s : State) (c : Nat) (tr : List Action) :
    State.takeDraw { s with counter := c, trace := tr } =
      (s.takeDraw.1, { s.takeDraw.2 with counter := c, trace := tr }) := by
  unfold State.takeDraw
  cases s.draws <;> rfl

/-- An advance neither reads nor writes the counter and the trace. -/
theorem seqAdvance_withTrace (j : Job) (s : State) (c : Nat) (tr : List Action) :
    seqAdvance j { s with counter := c, trace := tr } = { seqAdvance j s with counter := c, trace := tr } := by
  unfold seqAdvance
  repeat' split
  all_goals rfl

/-- The draw of a sequencer step neither reads nor writes the counter and the trace. -/
theorem seqDraw_withTrace (j : Job) (s : State) (c : Nat) (tr : List Action) :
    seqDraw j { s with counter := c, trace := tr } =
      ((seqDraw j s).1, { (seqDraw j s).2 with counter := c, trace := tr }) := by
  by_cases hc : j.phase = 2 ∧ s.params.transmitFallible = true
  · have h1 : seqDraw j s = ({ j with failed := j.failed || s.takeDraw.1 }, s.takeDraw.2) := if_pos hc
    have h2 : seqDraw j { s with counter := c, trace := tr } =
        ({ j with failed := j.failed || (State.takeDraw { s with counter := c, trace := tr }).1 },
          (State.takeDraw { s with counter := c, trace := tr }).2) := if_pos hc
    rw [h1, h2, s.takeDraw_withTrace]
  · have h1 : seqDraw j s = (j, s) := if_neg hc
    have h2 : seqDraw j { s with counter := c, trace := tr } = (j, { s with counter := c, trace := tr }) := if_neg hc
    rw [h1, h2]

/-- A sequencer step does not read the counter or the trace: no step of a `RENDER` sees an event between
(41_digit_multiplexer.md R134). -/
theorem seqStep_withTrace (j : Job) (s : State) (c : Nat) (tr : List Action) :
    seqStep j { s with counter := c, trace := tr } =
      { seqStep j s with counter := c, trace := tr ++ [seqAction s.params s.segRom j] } := by
  have h : State.emit { s with counter := c, trace := tr } (seqAction s.params s.segRom j) =
      { s.emit (seqAction s.params s.segRom j) with
        counter := c, trace := tr ++ [seqAction s.params s.segRom j] } := rfl
  unfold seqStep
  dsimp only
  rw [h, seqDraw_withTrace, seqAdvance_withTrace]

/-- Where an advance leaves `SEQ`, the pending response and the responses (R126): the job ended and answered, or goes on. -/
theorem seqAdvance_ends_or_goes_on (j : Job) (s : State) :
    seqAdvance j s = s.finishJob j ∨ ∃ j', j'.kind = j.kind ∧ seqAdvance j s = s.continueJob j' := by
  obtain ⟨-, -, h⟩ | ⟨-, -, -, h⟩ | ⟨-, -, h⟩ | ⟨-, -, -, h⟩ | ⟨-, -, h⟩ := seqAdvance_cases j s
  · exact .inl h
  · exact .inr ⟨_, by rfl, h⟩
  · exact .inl h
  · exact .inr ⟨_, by rfl, h⟩
  · exact .inr ⟨_, by rfl, h⟩

/-- What a sequencer step leaves unchanged, and where it leaves `SEQ` and the responses. -/
theorem seqStep_frame (j : Job) (s : State) :
    let t := seqStep j s
    t.counter = s.counter ∧ t.ledCfg = s.ledCfg ∧ t.btnCfg = s.btnCfg ∧ t.dispCfg = s.dispCfg ∧ t.chanCfg = s.chanCfg ∧
      t.trace = s.trace ++ [seqAction s.params s.segRom j] ∧ t.segRom = s.segRom ∧ t.params = s.params ∧
      t.bgQueue = s.bgQueue ∧ t.irqQueue = s.irqQueue ∧ t.turns = s.turns ∧
      ((t.seq = .idle ∧ t.pending = false ∧ ∃ r, t.responses = s.responses ++ [r]) ∨
        ∃ j', j'.kind = j.kind ∧ t.seq = .busy j' ∧ t.pending = s.pending ∧ t.responses = s.responses) := by
  obtain ⟨f, ds, n, h, -⟩ := seqStep_spec j s
  dsimp only
  rw [h]
  obtain h | ⟨j', hk, h⟩ := seqAdvance_ends_or_goes_on { j with failed := f }
    { s with trace := s.trace ++ [seqAction s.params s.segRom j], draws := ds, freeIx := n } <;> rw [h]
  · exact ⟨rfl, rfl, rfl, rfl, rfl, rfl, rfl, rfl, rfl, rfl, rfl, .inl ⟨rfl, rfl, _, rfl⟩⟩
  · exact ⟨rfl, rfl, rfl, rfl, rfl, rfl, rfl, rfl, rfl, rfl, rfl, .inr ⟨j', hk, rfl, rfl, rfl⟩⟩

/-- What an issue step is: a BG command's meaning, or the answer `ILLEGAL` (30_encoding.md R75). -/
theorem issueWord_cases {w : CmdWord} {s t : State} (h : issueWord w s = .next t) :
    (∃ i, decode .bg w = .instr i ∧ i.port = .bg ∧ exec i s = .next t) ∨
      (∃ v, decode .bg w = .illegal v ∧ t = s.raise .illegal) := by
  unfold issueWord at h
  split at h
  · next i hi =>
    refine .inl ⟨i, hi, ?_, h⟩
    cases i with
    | event n => exact absurd hi (decodeBg_ne_event w n)
    | _ => rfl
  · next v hv => exact .inr ⟨v, hv, (Host.Outcome.next.inj h).symm⟩
  · next hv => exact absurd hv (decodeBg_ne_ignored w)

/-- What a delivery is: an `EVENT`'s meaning, or nothing (30_encoding.md R75, R78). -/
theorem deliverWord_cases {w : CmdWord} {s t : State} (h : deliverWord w s = .next t) :
    (∃ n, decode .irq w = .instr (.event n) ∧ execEvent n s = .next t) ∨ (decode .irq w = .ignored ∧ t = s) := by
  unfold deliverWord at h
  obtain hw | ⟨n, hw⟩ := decodeIrq_cases w
  · have hw : decode .irq w = .ignored := hw
    rw [hw] at h
    exact .inr ⟨hw, (Host.Outcome.next.inj h).symm⟩
  · have hw : decode .irq w = .instr (.event n) := hw
    rw [hw] at h
    exact .inl ⟨n, hw, h⟩

/-- What a delivered word does: nothing to any state but the counter and the trace; those change only for an `EVENT` of the
configured button pin (42_counter_event.md R161, R164, R165). -/
theorem deliverWord_frame {w : CmdWord} {s t : State} (h : deliverWord w s = .next t) :
    t = { s with counter := t.counter, trace := t.trace } ∧
    ((t.counter = s.counter ∧ t.trace = s.trace ∧ ∀ b, s.btnCfg = some b → decode .irq w ≠ .instr (.event b)) ∨
     (∃ p, decode .irq w = .instr (.event p) ∧ s.btnCfg = some p ∧ t.counter = nextCount s.counter ∧
      ((s.ledCfg = none ∧ t.trace = s.trace) ∨ ∃ l, s.ledCfg = some l ∧ t.trace = s.trace ++ [.toggle l]))) := by
  obtain ⟨n, hd, he⟩ | ⟨hd, rfl⟩ := deliverWord_cases h
  · obtain ⟨hn, rfl⟩ | ⟨hb, rfl⟩ := execEvent_cases he
    · refine ⟨rfl, .inl ⟨rfl, rfl, ?_⟩⟩
      intro b hb h
      rw [hd] at h
      cases h
      exact hn hb
    · obtain ⟨h1, h2⟩ | ⟨l, h1, h2⟩ := s.toggleLed_spec <;> rw [h2]
      · exact ⟨rfl, .inr ⟨n, hd, hb, rfl, .inl ⟨h1, rfl⟩⟩⟩
      · exact ⟨rfl, .inr ⟨n, hd, hb, rfl, .inr ⟨l, h1, rfl⟩⟩⟩
  · refine ⟨rfl, .inl ⟨rfl, rfl, ?_⟩⟩
    intro b _ h
    rw [hd] at h
    cases h

/-- What an issue step leaves unchanged, and what it does to the responses: it answers at once, or starts a job. -/
theorem issueWord_frame {w : CmdWord} {s t : State} (h : issueWord w s = .next t) :
    t.counter = s.counter ∧ t.trace = s.trace ∧ t.segRom = s.segRom ∧ t.params = s.params ∧
      t.bgQueue = s.bgQueue ∧ t.irqQueue = s.irqQueue ∧ t.turns = s.turns ∧ t.draws = s.draws ∧ t.freeIx = s.freeIx ∧
      (∀ x, s.ledCfg = some x → t.ledCfg = some x) ∧ (∀ x, s.btnCfg = some x → t.btnCfg = some x) ∧
      (∀ x, s.dispCfg = some x → t.dispCfg = some x) ∧ (∀ x, s.chanCfg = some x → t.chanCfg = some x) ∧
      ((t.seq = s.seq ∧ t.pending = false ∧ ∃ r, t.responses = s.responses ++ [r] ∧ r.status ≠ .transmitFailed) ∨
        (∃ j, t.seq = .busy j ∧ t.pending = true ∧ t.responses = s.responses ∧ t.dispCfg = s.dispCfg ∧
          t.chanCfg = s.chanCfg)) := by
  obtain ⟨i, hd, hp, he⟩ | ⟨v, hd, rfl⟩ := issueWord_cases h
  · exact execBg_frame hp he
  · refine ⟨rfl, rfl, rfl, rfl, rfl, rfl, rfl, rfl, rfl, ?_, ?_, ?_, ?_, .inl ⟨rfl, rfl, _, rfl, by simp⟩⟩ <;> simp

/-- Who goes next: nobody where neither agent has a step; else an agent that has one, and the choice changes `turns` and
`freeIx` only (60_exceptions.md R228). -/
theorem nextAgent_cases (s : State) :
    (s.bgReady = false ∧ s.irqReady = false ∧ nextAgent s = none) ∨
      ∃ a ts n, (a = .bg → s.bgReady = true) ∧ (a = .irq → s.irqReady = true) ∧
        nextAgent s = some (a, { s with turns := ts, freeIx := n }) := by
  unfold nextAgent
  cases hb : s.bgReady <;> cases hi : s.irqReady
  · exact .inl ⟨rfl, rfl, rfl⟩
  · exact .inr ⟨.irq, s.turns, s.freeIx, by simp, by simp, rfl⟩
  · exact .inr ⟨.bg, s.turns, s.freeIx, by simp, by simp, rfl⟩
  · obtain ⟨ts, n, h⟩ := s.takeTurn_spec
    exact .inr ⟨s.takeTurn.1, ts, n, by simp, by simp, by simp [← h]⟩

/-- Everything a step can do: nothing, where neither agent has a step; one sequencer step; one issue; one delivery. -/
theorem step_cases {s t : State} (h : step s = .next t) :
    (s.bgReady = false ∧ s.irqReady = false ∧ t = s) ∨
      ∃ ts n,
        (∃ j, s.seq = .busy j ∧ t = seqStep j { s with turns := ts, freeIx := n }) ∨
        (∃ w rest, s.seq = .idle ∧ s.pending = false ∧ s.bgQueue = w :: rest ∧
          issueWord w { s with turns := ts, freeIx := n, bgQueue := rest } = .next t) ∨
        (∃ w rest, s.irqQueue = w :: rest ∧
          deliverWord w { s with turns := ts, freeIx := n, irqQueue := rest } = .next t) := by
  unfold step machineStep at h
  obtain ⟨h1, h2, h3⟩ | ⟨a, ts, n, hb, hi, h3⟩ := nextAgent_cases s <;> rw [h3] at h
  · exact .inl ⟨h1, h2, (Host.Outcome.next.inj h).symm⟩
  · refine .inr ⟨ts, n, ?_⟩
    cases a with
    | bg =>
      have hb := hb rfl
      simp only [agentStep, bgStep] at h
      cases hs : s.seq with
      | busy j => exact .inl ⟨j, rfl, by simpa [hs] using h.symm⟩
      | idle =>
        cases hq : s.bgQueue with
        | nil => simp [State.bgReady, hs, hq] at hb
        | cons w rest =>
          simp only [hs, hq] at h
          refine .inr (.inl ⟨w, rest, rfl, by simpa [State.bgReady, hs, hq] using hb, rfl, ?_⟩)
          rw [hs] at *
          exact h
    | irq =>
      have hi := hi rfl
      simp only [agentStep, irqStep] at h
      cases hq : s.irqQueue with
      | nil => simp [State.irqReady, hq] at hi
      | cons w rest =>
        simp only [hq] at h
        exact .inr (.inr ⟨w, rest, rfl, h⟩)

end Sys2Proof.Machine
end

