-- ==== Sys2Proof/Laws/Run.lean ====
section
/-! SUPPORT. Runs of several steps: one step and the rest, a run and its continuation, and what one step does on a machine
that no event interrupts. -/

namespace Sys2Proof.Machine

@[simp] theorem runSteps_zero (s : State) : runSteps 0 s = .next s := rfl

/-- A run is its first step and the rest. -/
theorem runSteps_succ (k : Nat) {s t : State} (h : step s = .next t) : runSteps (k + 1) s = runSteps k t := by
  have hs : Sys2Proof.core.step s = .next t := h
  exact (Host.Core.run.eq_def Sys2Proof.core (k + 1) s).trans (by simp only [hs])

/-- A run of one step is that step. -/
theorem runSteps_one {s t : State} (h : step s = .next t) : runSteps 1 s = .next t := runSteps_succ 0 h

/-- With no event waiting, a busy machine takes its sequencer step (10_state.md R37). -/
theorem step_busy {s : State} {j : Job} (hs : s.seq = .busy j) (hi : s.irqQueue = []) : step s = .next (seqStep j s) := by
  simp [step, machineStep, nextAgent, State.bgReady, State.irqReady, hs, hi, agentStep, bgStep]

/-- With no event waiting, an idle machine issues its next word (70_reset_and_hazards.md R273). -/
theorem step_issue {s : State} {w : CmdWord} {rest : List CmdWord} (hs : s.seq = .idle) (hp : s.pending = false)
    (hq : s.bgQueue = w :: rest) (hi : s.irqQueue = []) : step s = issueWord w { s with bgQueue := rest } := by
  simp [step, machineStep, nextAgent, State.bgReady, State.irqReady, hs, hp, hq, hi, agentStep, bgStep]

end Sys2Proof.Machine
end

