-- ==== Sys2Proof/Laws/Script.lean ====
section
/-! SUPPORT. A job against its script: one sequencer step of an infallible run emits the next action of `Job.script`, and a
job that no event interrupts emits all of it; and every step, fallible or not, brings a job nearer its end. -/

namespace Sys2Proof.Machine

/-- In an infallible run a sequencer step emits the next action of the script and goes on, or emits the last one, ends the
job and answers `OK` (41_digit_multiplexer.md R126, R127). -/
theorem seqStep_script {s : State} {j : Job} (hf : s.params.transmitFallible = false) (hj : JobOk s j) :
    (∃ a j', Job.remaining s.params s.segRom j = a :: Job.remaining s.params s.segRom j' ∧
      Job.remaining s.params s.segRom j' ≠ [] ∧ j'.kind = j.kind ∧ JobOk s j' ∧
      seqStep j s = { s with seq := .busy j', trace := s.trace ++ [a] }) ∨
    ∃ a, Job.remaining s.params s.segRom j = [a] ∧
      seqStep j s = { s with
        seq := .idle, pending := false, trace := s.trace ++ [a], responses := s.responses ++ [⟨.ok, 0⟩] } := by
  obtain ⟨hc, hfail, hk⟩ := hj
  have hff : j.failed = false := by
    cases h : j.failed with
    | false => rfl
    | true => exact absurd ((hfail h).1.symm.trans hf) (by simp)
  rw [seqStep_infallible j s hf]
  obtain ⟨kind, chan, cs, sel, digit, slot, phase, failed⟩ := j
  obtain rfl : failed = false := hff
  have spi : ∀ d, segEncode s.segRom (digitVal d) = s.segRom.read d := segEncode_digitVal s.segRom
  cases kind with
  | render =>
    fin_cases slot <;> fin_cases phase
    pick_goal 18
    · exact .inr ⟨_, rfl, rfl⟩
    all_goals
      refine .inl ⟨_, _, ?_, ?_, ?_, ?_, rfl⟩
      · first
          | rfl
          | exact congrArg (· :: _) (congrArg (Action.spi chan) (spi _).symm)
      · exact List.cons_ne_nil _ _
      · rfl
      · exact ⟨hc, by intro h; exact absurd h Bool.false_ne_true, hk⟩
  | xmit =>
    obtain ⟨rfl, rfl | rfl | rfl, hk⟩ := hk
    case inr.inr => exact .inr ⟨_, rfl, rfl⟩
    all_goals
      refine .inl ⟨_, _, ?_, ?_, ?_, ?_, rfl⟩
      · first
          | rfl
          | exact congrArg (· :: _) (congrArg (Action.spi chan) (spi _).symm)
      · exact List.cons_ne_nil _ _
      · rfl
      · exact ⟨hc, by intro h; exact absurd h Bool.false_ne_true, rfl, by first | exact .inr (.inl rfl) | exact .inr (.inr rfl), hk⟩

/-- Nothing in a job's order depends on what a sequencer step writes. -/
theorem JobOk.congr {s t : State} {j : Job} (h : JobOk s j) (hc : t.chanCfg = s.chanCfg) (hd : t.dispCfg = s.dispCfg)
    (hp : t.params = s.params) : JobOk t j := by
  unfold JobOk at *
  rw [hc, hd, hp]
  exact h

/-- The first `k` actions of a job that no event interrupts, `k` less than all, in an infallible run. -/
theorem runSteps_script_prefix (k : Nat) {s : State} {j : Job} (hf : s.params.transmitFallible = false)
    (hs : s.seq = .busy j) (hi : s.irqQueue = []) (hj : JobOk s j)
    (hk : k < (Job.remaining s.params s.segRom j).length) :
    ∃ j', JobOk s j' ∧ (Job.remaining s.params s.segRom j') = (Job.remaining s.params s.segRom j).drop k ∧
      runSteps k s = .next { s with
        seq := .busy j', trace := s.trace ++ (Job.remaining s.params s.segRom j).take k } := by
  induction k generalizing s j with
  | zero => exact ⟨j, hj, rfl, by rw [← hs]; simp⟩
  | succ k ih =>
    obtain ⟨a, j1, hr, -, -, hj1, h⟩ | ⟨a, hr, -⟩ := seqStep_script hf hj
    · have hstep := (step_busy hs hi).trans (congrArg Host.Outcome.next h)
      rw [hr] at hk ⊢
      obtain ⟨j', hj', hr', hrun⟩ := ih (s := { s with seq := .busy j1, trace := s.trace ++ [a] }) (j := j1) hf rfl hi
        (hj1.congr rfl rfl rfl) (by simpa using hk)
      refine ⟨j', hj'.congr rfl rfl rfl, hr', ?_⟩
      rw [runSteps_succ k hstep, hrun]
      simp
    · rw [hr] at hk
      simp at hk

/-- All actions of a job that no event interrupts, in an infallible run, and its answer (41_digit_multiplexer.md R126). -/
theorem runSteps_script {s : State} {j : Job} (hf : s.params.transmitFallible = false)
    (hs : s.seq = .busy j) (hi : s.irqQueue = []) (hj : JobOk s j) :
    runSteps (Job.remaining s.params s.segRom j).length s = .next { s with
      seq := .idle, pending := false, trace := s.trace ++ Job.remaining s.params s.segRom j,
      responses := s.responses ++ [⟨.ok, 0⟩] } := by
  generalize hn : (Job.remaining s.params s.segRom j).length = n
  induction n generalizing s j with
  | zero =>
    obtain ⟨a, j1, hr, -⟩ | ⟨a, hr, -⟩ := seqStep_script hf hj <;> rw [hr] at hn <;> simp at hn
  | succ n ih =>
    obtain ⟨a, j1, hr, -, -, hj1, h⟩ | ⟨a, hr, h⟩ := seqStep_script hf hj
    · have hstep := (step_busy hs hi).trans (congrArg Host.Outcome.next h)
      rw [runSteps_succ n hstep, ih (s := { s with seq := .busy j1, trace := s.trace ++ [a] }) (j := j1) hf rfl hi
        (hj1.congr rfl rfl rfl) (by simpa [hr] using hn), hr]
      simp
    · have hstep := (step_busy hs hi).trans (congrArg Host.Outcome.next h)
      rw [hr] at hn ⊢
      obtain rfl : n = 0 := by simpa using hn.symm
      exact runSteps_one hstep

/-- A sequencer step, fallible or not, either goes on with a job that has fewer steps left, or ends the job and answers
(41_digit_multiplexer.md R136). -/
theorem seqStep_stepsLeft {s : State} {j : Job} (hj : JobOk s j) :
    (∃ j', (seqStep j s).seq = .busy j' ∧ (seqStep j s).responses = s.responses ∧ (seqStep j s).pending = s.pending ∧
        Job.stepsLeft j' < Job.stepsLeft j) ∨
      ((seqStep j s).seq = .idle ∧ (seqStep j s).pending = false ∧ 0 < Job.stepsLeft j ∧
        ∃ r, (seqStep j s).responses = s.responses ++ [r]) := by
  obtain ⟨-, -, hk⟩ := hj
  obtain ⟨f, ds, n, h, -⟩ := seqStep_spec j s
  rw [h]
  have hlt : j.slot.val < 3 := j.slot.isLt
  have hpt : j.phase.val < 6 := j.phase.isLt
  have hpos : 0 < Job.stepsLeft j := by
    unfold Job.stepsLeft Job.place
    cases hkk : j.kind <;> rw [hkk] at hk <;> dsimp only at hk ⊢
    · omega
    · obtain ⟨h1, h2, -⟩ := hk
      rw [h1]
      rcases h2 with h2 | h2 | h2 <;> rw [h2] <;> decide
  obtain ⟨h1, h2, ha⟩ | ⟨h1, h2, h3, ha⟩ | ⟨h1, h2, ha⟩ | ⟨h1, h2, h3, ha⟩ | ⟨h1, h2, ha⟩ :=
    seqAdvance_cases { j with failed := f }
      { s with trace := s.trace ++ [seqAction s.params s.segRom j], draws := ds, freeIx := n } <;> rw [ha]
  · exact .inr ⟨rfl, rfl, hpos, _, rfl⟩
  · refine .inl ⟨_, rfl, rfl, rfl, ?_⟩
    dsimp only at h1 h2
    simp only [Job.stepsLeft, h1, Job.place, h2]
    omega
  · exact .inr ⟨rfl, rfl, hpos, _, rfl⟩
  · refine .inl ⟨_, rfl, rfl, rfl, ?_⟩
    dsimp only at h1 h3
    cases hkk : j.kind <;> rw [hkk] at hk <;> dsimp only at hk
    · simp only [Job.stepsLeft, hkk, Job.place, h1]
      have : (j.slot + 1).val = j.slot.val + 1 := by
        revert h3; generalize j.slot = x; revert x; decide
      rw [this]
      omega
    · rw [h1] at hk; simp at hk
  · refine .inl ⟨_, rfl, rfl, rfl, ?_⟩
    dsimp only at h1 h2
    have : (j.phase + 1).val = j.phase.val + 1 := by
      revert h1; generalize j.phase = x; revert x; decide
    cases hkk : j.kind <;> simp only [Job.stepsLeft, hkk, Job.place, this] at hpos ⊢ <;> omega

end Sys2Proof.Machine
end

