-- ==== Sys2Proof/Tests/Slice0.lean ====
section
/-! SUPPORT. The model's own tests: words written out from 30_encoding.md, vectors of 95_test_vectors.md (named by their ids),
a refusal for each check of WellFormed, and for each obligation with hypotheses a state and operands that meet them. -/

namespace Sys2Proof.Tests

open Sys2Proof.Machine

/-! ### Helpers: wiring W and the states of 95_test_vectors.md -/

/-- Wiring W of 95_test_vectors.md. -/
def wiringW : Wiring :=
  { disp := ⟨⟨1, 0⟩, ⟨1, 1⟩, ⟨1, 2⟩⟩, chan := ⟨1, ⟨1, 6⟩⟩, led := ⟨0, 5⟩, btn := 13 }

/-- The configured state of 95_test_vectors.md, no response in it. -/
def conf : State := { wiringW.configured with responses := [] }

/-- The same with a counter. -/
def confAt (n : Nat) : State := { conf with counter := n }

/-- The job of `RENDER v` under wiring W, at a slot and a phase. -/
def rjob (v : Val) (slot : Fin 3) (phase : Fin 6) : Job :=
  { renderJob wiringW.disp wiringW.chan v with slot := slot, phase := phase }

/-- A machine under wiring W that runs a job. -/
def busyWith (j : Job) : State := { conf with seq := .busy j, pending := true }

/-- The same in a fallible run whose next draw is given. -/
def fallibleWith (j : Job) (draw : Bool) : State :=
  { busyWith j with params := { Config.thisHardware with transmitFallible := true }, draws := [draw] }

/-- An outcome is a next state with a property. -/
def nextWith (o : Host.Outcome State Fault Refusal) (p : State → Bool) : Bool :=
  match o with
  | .next t => p t
  | .fault _ => false
  | .refused _ => false

/-! ### Decoding: every constructor's word, bit by bit (30_encoding.md R72, R74) -/

/-- V-W1: `OPC` 0000_0001, reserved 24 bits, port 0000, pin 0101. -/
theorem test_decode_cfgLed :
    decode .bg 0b0000000100000000000000000000000000000101#40 = .instr (.cfgLed ⟨0, 5⟩) := by decide

/-- V-W4: `OPC` 0000_0010, reserved 28 bits, pin 1101. -/
theorem test_decode_cfgBtn :
    decode .bg 0b0000001000000000000000000000000000001101#40 = .instr (.cfgBtn 13) := by decide

/-- Hundreds in bits 23..16, tens in 15..8, units in 7..0; a different line in each. -/
theorem test_decode_cfgDisp :
    decode .bg 0b0000001100000000001000110100010101100111#40 = .instr (.cfgDisp ⟨2, 3⟩ ⟨4, 5⟩ ⟨6, 7⟩) := by decide

/-- Channel in bits 11..8, chip-select line in 7..0. -/
theorem test_decode_cfgChan :
    decode .bg 0b0000010000000000000000000000100100010110#40 = .instr (.cfgChan 9 ⟨1, 6⟩) := by decide

/-- V-W10: all 32 bits of `VAL`. -/
theorem test_decode_enc :
    decode .bg 0b0001000011111111111111111111111111111111#40 = .instr (.enc 4294967295) := by decide

/-- `XMIT 3` of 30_encoding.md section 5. -/
theorem test_decode_xmit :
    decode .bg 0b0001000100000000000000000000000000000011#40 = .instr (.xmit 3) := by decide

/-- V-W11: `VAL` is 999. -/
theorem test_decode_render :
    decode .bg 0b0001001000000000000000000000001111100111#40 = .instr (.render 999) := by decide

/-- V-W12. -/
theorem test_decode_rdcnt :
    decode .bg 0b0010000000000000000000000000000000000000#40 = .instr .rdcnt := by decide

/-- V-W19. -/
theorem test_decode_event :
    decode .irq 0b0011000000000000000000000000000000001101#40 = .instr (.event 13) := by decide

/-- V-W3, V-W5, V-W7, V-W9, V-W13: one reserved bit set. -/
theorem test_decode_reserved_bits :
    [0x0100000100#40, 0x0200000010#40, 0x0301101112#40, 0x0400001116#40, 0x2000000001#40].all
      (fun w => decide (decode .bg w = .illegal w)) = true := by decide

/-- V-W14 to V-W18: reserved opcodes, and `EVENT` on BG. -/
theorem test_decode_reserved_opcodes :
    [0x0000000000#40, 0x0500000000#40, 0x13000000FF#40, 0x300000000D#40, 0xFFFFFFFFFF#40].all
      (fun w => decide (decode .bg w = .illegal w)) = true := by decide

/-- V-W20, V-W21. -/
theorem test_decode_ignored :
    decode .irq 0x3000000010#40 = .ignored ∧ decode .irq 0x1200000005#40 = .ignored := by decide

/-- The rows of spec/opcode_table.json are told apart: no word matches two of them on one port. -/
theorem test_opcode_rows_do_not_overlap :
    opcodeTable.Pairwise (fun a b => a.port ≠ b.port ∨ a.pattern &&& b.mask ≠ b.pattern &&& a.mask) := by decide

/-- The word of a table row reaches its instruction, on its port. -/
theorem test_decodeTableWord :
    decodeTableWord 40 0x300000000D = some (.event 13) ∧ decodeTableWord 40 0x12000003E7 = some (.render 999) ∧
      decodeTableWord 40 0x0500000000 = none := by decide

/-! ### WellFormed: an ill-formed term for each check -/

/-- R232: IRQ may not carry a BG command, nor BG an `EVENT`. -/
theorem test_wellFormed_port_refuses :
    Instr.wellFormedOn .irq (.enc 0) = false ∧ Instr.wellFormedOn .bg (.event 0) = false ∧
      Instr.wellFormedOn .irq (.event 15) = true := by decide

/-- R81: a port or a pin of a LineId above 15. -/
theorem test_wellFormed_line_refuses :
    SrcInstr.wellFormed (.cfgLed ⟨16, 0⟩) = false ∧ SrcInstr.wellFormed (.cfgLed ⟨0, 16⟩) = false ∧
      SrcInstr.wellFormed (.cfgLed ⟨15, 15⟩) = true := by decide

/-- R81: a pin above 15. -/
theorem test_wellFormed_pin_refuses :
    SrcInstr.wellFormed (.cfgBtn 16) = false ∧ SrcInstr.wellFormed (.event 16) = false ∧
      SrcInstr.wellFormed (.event 15) = true := by decide

/-- R81: each of the three lines of a `CFG_DISP`. -/
theorem test_wellFormed_disp_refuses :
    SrcInstr.wellFormed (.cfgDisp ⟨16, 0⟩ ⟨0, 0⟩ ⟨0, 0⟩) = false ∧
      SrcInstr.wellFormed (.cfgDisp ⟨0, 0⟩ ⟨0, 16⟩ ⟨0, 0⟩) = false ∧
      SrcInstr.wellFormed (.cfgDisp ⟨0, 0⟩ ⟨0, 0⟩ ⟨16, 0⟩) = false := by decide

/-- R81: the channel and the chip-select line of a `CFG_CHAN`. -/
theorem test_wellFormed_chan_refuses :
    SrcInstr.wellFormed (.cfgChan 16 ⟨0, 0⟩) = false ∧ SrcInstr.wellFormed (.cfgChan 0 ⟨0, 16⟩) = false := by decide

/-- R81: a value of more than 32 bits. -/
theorem test_wellFormed_value_refuses :
    SrcInstr.wellFormed (.enc 4294967296) = false ∧ SrcInstr.wellFormed (.xmit 4294967296) = false ∧
      SrcInstr.wellFormed (.render 4294967296) = false ∧ SrcInstr.wellFormed (.render 4294967295) = true := by decide

/-- The assembler refuses them too, and names no other line a command (log entry 17). -/
theorem test_assembler_refuses :
    assemble "EVENT 16" = .error .doesNotFit ∧ assemble "CFG_LED P0" = .error .badOperands ∧
      assemble "BOGUS 1" = .error .unknownMnemonic := by decide

/-! ### Meanings, on the vectors of 95_test_vectors.md -/

/-- V-G1, V-G2: the first `CFG_LED` binds, the second does not. -/
theorem test_cfgLed_binds_once :
    nextWith (exec (.cfgLed ⟨0, 5⟩) State.reset)
      (fun t => t.ledCfg == some ⟨0, 5⟩ && t.responses == [⟨.ok, 0⟩]) = true ∧
    nextWith (exec (.cfgLed ⟨0, 7⟩) conf)
      (fun t => t.ledCfg == some ⟨0, 5⟩ && t.responses == [⟨.alreadyConfigured, 0⟩]) = true := by decide

/-- V-G4, V-G5: pin 0 is bound as `some 0`. -/
theorem test_cfgBtn_binds_once :
    nextWith (exec (.cfgBtn 0) State.reset) (fun t => t.btnCfg == some 0 && t.responses == [⟨.ok, 0⟩]) = true ∧
    nextWith (exec (.cfgBtn 12) conf)
      (fun t => t.btnCfg == some 13 && t.responses == [⟨.alreadyConfigured, 0⟩]) = true := by decide

/-- V-G6, V-G7. -/
theorem test_cfgDisp_binds_once :
    nextWith (exec (.cfgDisp ⟨1, 0⟩ ⟨1, 1⟩ ⟨1, 2⟩) State.reset)
      (fun t => t.dispCfg == some wiringW.disp && t.responses == [⟨.ok, 0⟩]) = true ∧
    nextWith (exec (.cfgDisp ⟨2, 0⟩ ⟨2, 1⟩ ⟨2, 2⟩) conf)
      (fun t => t.dispCfg == some wiringW.disp && t.responses == [⟨.alreadyConfigured, 0⟩]) = true := by decide

/-- V-G8, V-G9. -/
theorem test_cfgChan_binds_once :
    nextWith (exec (.cfgChan 1 ⟨1, 6⟩) State.reset)
      (fun t => t.chanCfg == some wiringW.chan && t.responses == [⟨.ok, 0⟩]) = true ∧
    nextWith (exec (.cfgChan 2 ⟨1, 7⟩) conf)
      (fun t => t.chanCfg == some wiringW.chan && t.responses == [⟨.alreadyConfigured, 0⟩]) = true := by decide

/-- V-G10, V-G11: `ILLEGAL` before `ALREADY_CONFIGURED` (60_exceptions.md R226). -/
theorem test_illegal_has_priority :
    nextWith (issueWord 0x0100000105#40 conf)
      (fun t => t.ledCfg == some ⟨0, 5⟩ && t.responses == [⟨.illegal, 0⟩]) = true ∧
    nextWith (issueWord 0x0100000105#40 State.reset)
      (fun t => t.ledCfg == none && t.responses == [⟨.illegal, 0⟩]) = true := by decide

/-- V-E1 to V-E10, the default table. -/
theorem test_enc_golden_table :
    (List.range 10).map (fun d => segEncode State.reset.segRom (BitVec.ofNat 32 d)) =
      [0x3F#8, 0x06#8, 0x5B#8, 0x4F#8, 0x66#8, 0x6D#8, 0x7D#8, 0x07#8, 0x7F#8, 0x6F#8] := by decide

/-- V-E13 and V-E16, straight after reset; and another table's entry with bit 7 set, read as it stands
(40_segment_encoder.md R102). -/
theorem test_enc_responds :
    nextWith (exec (.enc 123) State.reset) (fun t => t.responses == [⟨.ok, 0x4F⟩]) = true ∧
    nextWith (exec (.enc 4294967295) State.reset) (fun t => t.responses == [⟨.ok, 0x6D⟩]) = true ∧
    nextWith (exec (.enc 17) { State.reset with segRom := Memory.ofTable fun d => if d = 7 then 0x81#8 else 0#8 })
      (fun t => t.responses == [⟨.ok, 0x81⟩]) = true := by decide

/-- V-D1 to V-D10. -/
theorem test_decompose :
    [0#32, 5#32, 10#32, 99#32, 100#32, 407#32, 999#32, 1000#32, 1234#32, 4294967295#32].map decompose =
      [⟨0, 0, 0⟩, ⟨0, 0, 5⟩, ⟨0, 1, 0⟩, ⟨0, 9, 9⟩, ⟨1, 0, 0⟩, ⟨4, 0, 7⟩, ⟨9, 9, 9⟩, ⟨0, 0, 0⟩, ⟨2, 3, 4⟩, ⟨2, 9, 5⟩] := by
  decide

/-- V-R4's issue step: no action and no response yet; V-R7 to V-R9: a missing binding. -/
theorem test_render_issue :
    nextWith (exec (.render 407) conf)
      (fun t => t.seq == .busy (rjob 407 0 0) && t.pending && t.trace == [] && t.responses == []) = true ∧
    [State.reset, { conf with chanCfg := none }, { conf with dispCfg := none }].all (fun s =>
      nextWith (exec (.render 5) s)
        (fun t => t.seq == .idle && t.trace == [] && t.responses == [⟨.notConfigured, 0⟩])) = true := by decide

/-- V-R2: its actions as the spec lists them, 1 to 6, 7 to 12, 13 to 18; and actions 1, 3, 5 and 18, each by its own
sequencer step. -/
theorem test_render_actions :
    (Job.remaining Config.thisHardware [] (rjob 5 0 0)).take 6 =
      [.set ⟨1, 0⟩ .asserted, .set ⟨1, 6⟩ .asserted, .spi 1 0x3F, .set ⟨1, 6⟩ .deasserted, .delay 1,
       .set ⟨1, 0⟩ .deasserted] ∧
    ((Job.remaining Config.thisHardware [] (rjob 5 0 0)).drop 6).take 6 =
      [.set ⟨1, 1⟩ .asserted, .set ⟨1, 6⟩ .asserted, .spi 1 0x3F, .set ⟨1, 6⟩ .deasserted, .delay 1,
       .set ⟨1, 1⟩ .deasserted] ∧
    (Job.remaining Config.thisHardware [] (rjob 5 0 0)).drop 12 =
      [.set ⟨1, 2⟩ .asserted, .set ⟨1, 6⟩ .asserted, .spi 1 0x6D, .set ⟨1, 6⟩ .deasserted, .delay 1,
       .set ⟨1, 2⟩ .deasserted] ∧
    nextWith (step (busyWith (rjob 5 0 0))) (fun t => t.trace == [.set ⟨1, 0⟩ .asserted]) = true ∧
    nextWith (step (busyWith (rjob 5 0 2))) (fun t => t.trace == [.spi 1 0x3F]) = true ∧
    nextWith (step (busyWith (rjob 5 0 4))) (fun t => t.trace == [.delay 1]) = true ∧
    nextWith (step (busyWith (rjob 5 2 5)))
      (fun t => t.trace == [.set ⟨1, 2⟩ .deasserted] && t.seq == .idle && t.responses == [⟨.ok, 0⟩]) = true := by decide

/-- V-X6 and V-X3: an `XMIT` without display wiring, its digit `VAL mod 10`; V-X5: no channel. -/
theorem test_xmit_starts :
    nextWith (exec (.xmit 13) { conf with dispCfg := none })
      (fun t => t.seq == .busy (xmitJob ⟨1, ⟨1, 6⟩⟩ 3) && t.trace == []) = true ∧
    nextWith (exec (.xmit 3) State.reset)
      (fun t => t.seq == .idle && t.trace == [] && t.responses == [⟨.notConfigured, 0⟩]) = true := by decide

/-- V-X4's three actions and its answer. -/
theorem test_xmit_actions :
    nextWith (step (busyWith (xmitJob wiringW.chan 4294967295))) (fun t => t.trace == [.set ⟨1, 6⟩ .asserted]) = true ∧
    nextWith (step (busyWith { xmitJob wiringW.chan 4294967295 with phase := 2 }))
      (fun t => t.trace == [.spi 1 0x6D]) = true ∧
    nextWith (step (busyWith { xmitJob wiringW.chan 4294967295 with phase := 3 }))
      (fun t => t.trace == [.set ⟨1, 6⟩ .deasserted] && t.seq == .idle && t.responses == [⟨.ok, 0⟩]) = true := by decide

/-- V-F1 at its second byte, and the closing actions after it: the hold is skipped, no later slot runs. -/
theorem test_transmit_failed :
    nextWith (step (fallibleWith (rjob 5 1 2) true))
      (fun t => t.seq == .busy { rjob 5 1 3 with failed := true } && t.trace == [.spi 1 0x3F] && t.draws == []) = true ∧
    nextWith (step (fallibleWith { rjob 5 1 3 with failed := true } true))
      (fun t => t.seq == .busy { rjob 5 1 5 with failed := true } && t.draws == [true]) = true ∧
    nextWith (step (fallibleWith { rjob 5 1 5 with failed := true } true))
      (fun t => t.seq == .idle && t.responses == [⟨.transmitFailed, 0⟩]) = true := by decide

/-- V-V1, V-V2, V-V3 and V-V4: counting and the wrap. -/
theorem test_event_counts :
    [(0, 1), (999, 0), (998, 999), (41, 42)].all (fun c =>
      nextWith (deliverWord 0x300000000D#40 (confAt c.1))
        (fun t => t.counter == c.2 && t.trace == [.toggle ⟨0, 5⟩] && t.responses == [])) = true := by decide

/-- V-V5, V-V6, V-V9: nothing; V-V7: counted without a toggle; V-V11: pin 0. -/
theorem test_event_filters :
    [0x300000000C#40, 0x3000000000#40].all (fun w =>
      nextWith (deliverWord w (confAt 41)) (fun t => t == confAt 41)) = true ∧
    nextWith (deliverWord 0x300000000D#40 { confAt 41 with btnCfg := none }) (fun t => t.counter == 41 && t.trace == []) = true ∧
    nextWith (deliverWord 0x300000000D#40 { confAt 41 with ledCfg := none }) (fun t => t.counter == 42 && t.trace == []) = true ∧
    nextWith (deliverWord 0x3000000000#40 { confAt 7 with btnCfg := some 0 }) (fun t => t.counter == 8) = true := by decide

/-- V-N1 and V-N2. -/
theorem test_rdcnt_responds :
    nextWith (exec .rdcnt State.reset) (fun t => t.responses == [⟨.ok, 0⟩]) = true ∧
    nextWith (exec .rdcnt (confAt 999)) (fun t => t.responses == [⟨.ok, 0x3E7⟩] && t.counter == 999) = true := by decide

/-- U13: a reserved status code faults; the five others read back. -/
theorem test_response_words :
    Response.word ⟨.transmitFailed, 0x3F⟩ = 0x40000003F#36 ∧
      readResponse 0x500000000#36 = .fault (.reservedStatus 5) := ⟨by decide, rfl⟩

/-- P4: a line is at its last `SET`, and a `TOGGLE` of a line whose level is unknown leaves it unknown (R32). -/
theorem test_line_levels :
    levelFrom (some .deasserted) ⟨0, 5⟩ [.set ⟨1, 6⟩ .asserted, .toggle ⟨0, 5⟩] = some .asserted ∧
      levelFrom none ⟨0, 5⟩ [.toggle ⟨0, 5⟩] = none ∧
      levelFrom none ⟨0, 5⟩ [.set ⟨0, 5⟩ .deasserted, .toggle ⟨0, 5⟩] = some .asserted := by decide

/-! ### The step -/

/-- A word placed by `withFetchWord` is what the very next step runs, on either port, whatever was going on. -/
theorem test_withFetchWord :
    nextWith (step (State.reset.withFetchWord 40 0x020000000D)) (fun t => t.btnCfg == some 13 && t.bgQueue == []) = true ∧
    nextWith (step ((busyWith (rjob 5 0 3)).withFetchWord 40 0x300000000D))
      (fun t => t.counter == 1 && t.seq == .busy (rjob 5 0 3)) = true ∧
    nextWith (step ({ busyWith (rjob 5 0 3) with irqQueue := [0x300000000D#40] }.withFetchWord 40 0x2000000000))
      (fun t => t.responses == [⟨.ok, 0⟩]) = true := by decide

/-- P3: an event between actions 9 and 10 of `RENDER 41`: the turn is IRQ's, the counter advances, the job stays. -/
theorem test_event_in_render :
    nextWith (step { busyWith (rjob 41 1 3) with counter := 41, irqQueue := [0x300000000D#40], turns := [.irq] })
      (fun t => t.counter == 42 && t.trace == [.toggle ⟨0, 5⟩] && t.seq == .busy (rjob 41 1 3) && t.turns == []) = true := by
  decide

/-- BG's turn: the same state takes the sequencer step and leaves the event waiting. -/
theorem test_render_before_event :
    nextWith (step { busyWith (rjob 41 1 3) with counter := 41, irqQueue := [0x300000000D#40], turns := [.bg] })
      (fun t => t.counter == 41 && t.trace == [.set ⟨1, 6⟩ .deasserted] && t.irqQueue == [0x300000000D#40]) = true := by
  decide

/-! ### Witnesses: for each obligation with hypotheses, a state and operands that meet them -/

/-- One BG word waiting, and events waiting if any are given. -/
def waiting (w : CmdWord) (events : List CmdWord) (turns : List Agent) : State :=
  { conf with bgQueue := [w], irqQueue := events, turns := turns }

/-- A `RENDER` that is about to be issued, its value at the largest. -/
def aboutToRender : State := waiting 0x12FFFFFFFF#40 [] []

/-- The same after actions that left the three select lines at `DEASSERTED`. -/
def aboutToRenderDark : State :=
  { aboutToRender with trace := [.set ⟨1, 0⟩ .deasserted, .set ⟨1, 1⟩ .deasserted, .set ⟨1, 2⟩ .deasserted] }

theorem test_witness_DecodedWordIsTheEncoding :
    decode .bg 0x12FFFFFFFF#40 = .instr (.render 4294967295) ∧ decode .irq 0x300000000F#40 = .instr (.event 15) := by decide

theorem test_witness_CommandsAreExactlyTheTableRows :
    (Instr.event 0).row ∈ opcodeTable ∧ (Instr.event 0).row.matches .irq 0x300000000F#40 = true ∧
      (Instr.event 0).row.matches .bg 0x300000000F#40 = false := by decide

theorem test_witness_IllegalWordsOnlyAnswerIllegal :
    opcode 0x3000000000#40 ∉ [0x01#8, 0x02#8, 0x03#8, 0x04#8, 0x10#8, 0x11#8, 0x12#8, 0x20#8] ∧
    opcode 0x0500000000#40 ∉ [0x01#8, 0x02#8, 0x03#8, 0x04#8, 0x10#8, 0x11#8, 0x12#8, 0x20#8] ∧
    (opcode 0x0100000100#40 = 0x01#8 ∧ (dataField 0x0100000100#40).extractLsb' 8 24 ≠ 0) ∧
    (opcode 0x0200000010#40 = 0x02#8 ∧ (dataField 0x0200000010#40).extractLsb' 4 28 ≠ 0) ∧
    (opcode 0x0301000000#40 = 0x03#8 ∧ (dataField 0x0301000000#40).extractLsb' 24 8 ≠ 0) ∧
    (opcode 0x0400001000#40 = 0x04#8 ∧ (dataField 0x0400001000#40).extractLsb' 12 20 ≠ 0) ∧
    (opcode 0x2000000001#40 = 0x20#8 ∧ dataField 0x2000000001#40 ≠ 0) := by decide

theorem test_witness_MalformedIrqWordsAreIgnored :
    opcode 0x3100000000#40 ≠ 0x30#8 ∧ (dataField 0x3000000010#40).extractLsb' 4 28 ≠ 0 := by decide

theorem test_witness_StepRunsTheDecodedInstruction :
    decode .bg 0x2000000000#40 = .instr .rdcnt ∧ decode .irq 0x300000000D#40 = .instr (.event 13) ∧
    (waiting 0x2000000000#40 [] []).irqQueue = [] ∧
    ((waiting 0x2000000000#40 [0x300000000D#40] [.bg]).seq = .idle ∧
      (waiting 0x2000000000#40 [0x300000000D#40] [.bg]).pending = false ∧
      (waiting 0x2000000000#40 [0x300000000D#40] [.bg]).bgQueue = [0x2000000000#40] ∧
      (waiting 0x2000000000#40 [0x300000000D#40] [.bg]).irqQueue ≠ []) ∧
    (waiting 0x2000000000#40 [0x300000000D#40] []).turns = [] ∧
    State.bgReady { conf with irqQueue := [0x300000000D#40] } = false ∧
    (waiting 0x2000000000#40 [0x300000000D#40] [.irq]).bgReady = true := by decide

theorem test_witness_BusyStepIsTheSequencerStep :
    (busyWith (rjob 5 0 0)).seq = .busy (rjob 5 0 0) ∧ (busyWith (rjob 5 0 0)).irqQueue = [] ∧
    State.irqQueue { busyWith (rjob 5 2 5) with irqQueue := [0x300000000D#40], turns := [.bg] } ≠ [] := by decide

theorem test_witness_CompleteStateStandsStill : State.reset.complete ∧ conf.complete :=
  ⟨⟨rfl, rfl, rfl, rfl⟩, ⟨rfl, rfl, rfl, rfl⟩⟩

/-- The invariant in a state with a job that has failed, at its last action: every clause of it is met at a boundary. -/
theorem test_witness_failed_job_inv :
    (fallibleWith { rjob 999 2 5 with failed := true } false).Inv :=
  ⟨by decide, by decide, rfl, rfl, fun _ => ⟨rfl, .inr rfl⟩, ⟨_, rfl, rfl⟩, _, rfl⟩

/-- The invariant of a machine that starts the frame of an `XMIT`, the counter at 999. -/
theorem test_witness_xmit_inv :
    State.Inv { busyWith (xmitJob wiringW.chan 3) with counter := 999 } :=
  ⟨by decide, by decide, rfl, rfl, fun h => absurd h Bool.false_ne_true, rfl, .inl rfl, rfl, _, rfl⟩

/-- The invariant of a machine at any action of a `RENDER`. -/
theorem test_witness_render_inv : (busyWith (rjob 407 1 2)).Inv :=
  ⟨by decide, by decide, rfl, rfl, fun h => absurd h Bool.false_ne_true, ⟨_, rfl, rfl⟩, _, rfl⟩

theorem test_witness_idle_inv : aboutToRender.Inv := ⟨by decide, by decide, rfl⟩

/-- A start state of a run with another table, the least `WORD_BITS`, a fallible transmit and words left to send. -/
def otherStart : State :=
  { State.reset with
    segRom := Memory.ofTable fun _ => 0x81#8
    params := { holdMs := 0, transmitFallible := true, wordBits := 10 }
    bgQueue := wiringW.bootWords true ++ [0x1200000005#40]
    irqQueue := [0x300000000D#40] }

theorem test_witness_ResetMeetsTheInvariant : ResetState otherStart ∧ LegalArguments otherStart :=
  ⟨⟨rfl, rfl, rfl, rfl, rfl, rfl, rfl, rfl, rfl⟩, by decide⟩

/-- No event waiting, and a word after the boot words. -/
theorem test_witness_BootReachesTheConfiguredState :
    ResetState { otherStart with irqQueue := [] } ∧
      otherStart.bgQueue = wiringW.bootWords true ++ [0x1200000005#40] :=
  ⟨⟨rfl, rfl, rfl, rfl, rfl, rfl, rfl, rfl, rfl⟩, rfl⟩

/-- Five steps: the four words and an event between the second and the third. -/
theorem test_witness_BootWordsBindTheWiring :
    ResetState { otherStart with turns := [.bg, .bg, .irq] } ∧
      otherStart.bgQueue = wiringW.bootWords true ++ [0x1200000005#40] ∧
      nextWith (runSteps 5 { otherStart with turns := [.bg, .bg, .irq] })
        (fun s => decide (s.bgQueue.length ≤ 1) && s.irqQueue == []) = true :=
  ⟨⟨rfl, rfl, rfl, rfl, rfl, rfl, rfl, rfl, rfl⟩, rfl, by decide⟩

/-- A host that sends an `ENC` first and a `RDCNT` between the boot words. -/
def chattyStart : State :=
  { State.reset with
    bgQueue := [0x1000000007#40, 0x0400000116#40, 0x2000000000#40, 0x0300101112#40, 0x0100000005#40, 0x020000000D#40] }

/-- The boot words first; and steps 2 and 3 done with other words before and between them. -/
theorem test_witness_BootWiredRunsAreBound :
    (ResetState { otherStart with turns := [.bg, .bg, .irq] } ∧
      nextWith (runSteps 5 { otherStart with turns := [.bg, .bg, .irq] })
        (fun s => decide (s.bgQueue.length ≤ 1)) = true) ∧
    ResetState chattyStart ∧ ∃ s, BootAnswered wiringW chattyStart s :=
  ⟨⟨⟨rfl, rfl, rfl, rfl, rfl, rfl, rfl, rfl, rfl⟩, by decide⟩, ⟨rfl, rfl, rfl, rfl, rfl, rfl, rfl, rfl, rfl⟩,
    _, ⟨6, rfl⟩, 3, 1, 4, 5, by decide, by decide, by decide, ⟨rfl, rfl⟩, ⟨rfl, rfl⟩, ⟨rfl, rfl⟩, ⟨rfl, rfl⟩⟩

/-- A boot word that is refused, the LED bound by another word before it, does not count as answered `OK`. -/
theorem test_refused_boot_word :
    nextWith (runSteps 2 { State.reset with bgQueue := [0x0100000007#40, 0x0100000005#40] })
      (fun s => s.responses == [⟨.ok, 0⟩, ⟨.alreadyConfigured, 0⟩]) = true := by decide

theorem test_witness_StepKeepsTheInvariant :
    (busyWith (rjob 407 1 2)).Inv ∧ ∃ t, step (busyWith (rjob 407 1 2)) = .next t := ⟨test_witness_render_inv, _, rfl⟩

theorem test_witness_CounterIsNeverSeenOutOfRange :
    (confAt 999).counter ≤ 999 ∧ ∃ t, step { confAt 999 with irqQueue := [0x300000000D#40] } = .next t :=
  ⟨by decide, _, rfl⟩

/-- A step that changes the counter, and one that does not; the least `WORD_BITS`, the counter at its largest for it. -/
theorem test_witness_OnlyQualifyingEventsWriteTheCounter :
    nextWith (step { confAt 999 with irqQueue := [0x300000000D#40] }) (fun t => t.counter == 0) = true ∧
    nextWith (step aboutToRender) (fun t => t.counter == 0) = true ∧
    nextWith (step { confAt 1023 with params := { Config.thisHardware with wordBits := 10 } })
      (fun t => t.params.wordBits == 10 && decide (1023 < 2 ^ t.params.wordBits)) = true ∧
    (Instr.enc 0).port = .bg ∧ (∃ t, exec (.enc 0) conf = .next t) ∧ ∃ t, exec .rdcnt (confAt 4294967295) = .next t :=
  ⟨by decide, by decide, by decide, rfl, ⟨_, rfl⟩, _, rfl⟩

theorem test_witness_RomAndParametersNeverChange : ∃ t, step (busyWith (rjob 407 2 2)) = .next t := ⟨_, rfl⟩

theorem test_witness_BindingsAreWriteOnce :
    conf.ledCfg = some ⟨0, 5⟩ ∧ conf.btnCfg = some 13 ∧ conf.dispCfg = some wiringW.disp ∧ conf.chanCfg = some wiringW.chan ∧
      ∃ t, step (waiting 0x0100000007#40 [] []) = .next t := ⟨rfl, rfl, rfl, rfl, _, rfl⟩

/-- Each of the three ways the trace may go on is taken by a step. -/
theorem test_witness_EachStepEmitsAtMostOneAction :
    nextWith (step aboutToRender) (fun t => t.trace == []) = true ∧
    nextWith (step (busyWith (rjob 5 0 4))) (fun t => t.trace == [.delay 1]) = true ∧
    nextWith (step { conf with irqQueue := [0x300000000D#40] }) (fun t => t.trace == [.toggle ⟨0, 5⟩]) = true := by decide

theorem test_witness_EveryCommandGetsOneResponse :
    aboutToRender.Inv ∧ (∃ t, step aboutToRender = .next t) ∧
    (busyWith (rjob 407 1 2)).Inv ∧ ∃ t, step (busyWith (rjob 407 1 2)) = .next t :=
  ⟨test_witness_idle_inv, ⟨_, rfl⟩, test_witness_render_inv, _, rfl⟩

theorem test_witness_BusySequencerBlocksBg :
    (busyWith (rjob 5 2 5)).seq = .busy (rjob 5 2 5) ∧ (busyWith (rjob 5 2 5)).irqQueue = [] ∧
    (∃ t, step (busyWith (rjob 5 2 5)) = .next t) ∧
    (∃ t, step { busyWith (rjob 5 0 0) with irqQueue := [0x300000000D#40], turns := [.irq] } = .next t) ∧
    State.irqQueue { conf with irqQueue := [0x300000000D#40] } = [0x300000000D#40] :=
  ⟨rfl, rfl, ⟨_, rfl⟩, ⟨_, rfl⟩, rfl⟩

theorem test_witness_CfgLedBindsTheLed : State.reset.ledCfg = none ∧ conf.ledCfg = some ⟨0, 5⟩ := by decide

theorem test_witness_CfgBtnBindsTheButton :
    State.reset.btnCfg = none ∧ conf.btnCfg = some 13 ∧ ∃ t, exec (.cfgBtn 0) State.reset = .next t := ⟨rfl, rfl, _, rfl⟩

theorem test_witness_CfgDispBindsTheSelectLines :
    State.reset.dispCfg = none ∧ conf.dispCfg = some ⟨⟨1, 0⟩, ⟨1, 1⟩, ⟨1, 2⟩⟩ := by decide

theorem test_witness_CfgChanBindsTheChannel :
    State.reset.chanCfg = none ∧ conf.chanCfg = some ⟨1, ⟨1, 6⟩⟩ := by decide

theorem test_witness_EncAnswersTheSegmentPattern :
    (5 : Digit).val = (4294967295#32 : Val).toNat % 10 ∧ (0 : Digit).val = (0#32 : Val).toNat % 10 := by decide

theorem test_witness_EncoderHasPeriodTen : 5 + 10 * 429496729 < 2 ^ 32 ∧ 0 + 10 * 0 < 2 ^ 32 := by decide

theorem test_witness_DigitsMakeUpTheValue : (999#32 : Val).toNat ≤ 999 ∧ (0#32 : Val).toNat ≤ 999 := by decide

theorem test_witness_SlotsAreHundredsTensUnits :
    (∃ j : Job, j = renderJob wiringW.disp wiringW.chan 407) ∧
    [rjob 407 0 5, rjob 407 1 5, rjob 407 2 5].all (fun j => j.kind == .render && j.phase == 5 && !j.failed) = true ∧
    (rjob 407 0 5).slot = 0 ∧ (rjob 407 1 5).slot = 1 ∧ (rjob 407 2 5).slot = 2 :=
  ⟨⟨_, rfl⟩, by decide, rfl, rfl, rfl⟩

theorem test_witness_RenderStartsItsJob :
    (conf.dispCfg = some wiringW.disp ∧ conf.chanCfg = some wiringW.chan) ∧
    State.dispCfg { conf with dispCfg := none } = none ∧ State.chanCfg { conf with chanCfg := none } = none := by decide

theorem test_witness_XmitStartsItsJob :
    (5 : Digit).val = (4294967295#32 : Val).toNat % 10 ∧ conf.chanCfg = some wiringW.chan ∧
      State.reset.chanCfg = none := by decide

theorem test_witness_RenderEmitsItsEighteenActions :
    aboutToRender.seq = .idle ∧ aboutToRender.pending = false ∧ aboutToRender.irqQueue = [] ∧
      aboutToRender.params.transmitFallible = false ∧ aboutToRender.bgQueue = [encode (.render 4294967295)] ∧
      aboutToRender.dispCfg = some wiringW.disp ∧ aboutToRender.chanCfg = some wiringW.chan := by decide

theorem test_witness_XmitEmitsOneFrame :
    (waiting 0x11FFFFFFFF#40 [] []).seq = .idle ∧ (waiting 0x11FFFFFFFF#40 [] []).irqQueue = [] ∧
      (waiting 0x11FFFFFFFF#40 [] []).params.transmitFallible = false ∧
      (5 : Digit).val = (4294967295#32 : Val).toNat % 10 ∧
      (waiting 0x11FFFFFFFF#40 [] []).bgQueue = [encode (.xmit 4294967295)] ∧
      (waiting 0x11FFFFFFFF#40 [] []).chanCfg = some wiringW.chan := by decide

/-- Both ends of a job: an action with more to come, and the last one. -/
theorem test_witness_SequencerFollowsItsScript :
    (busyWith (rjob 407 1 2)).Inv ∧ Infallible (busyWith (rjob 407 1 2)) ∧
    (∃ t, step (busyWith (rjob 407 1 2)) = .next t) ∧
    nextWith (step (busyWith (rjob 5 2 5))) (fun t => t.seq == .idle) = true :=
  ⟨test_witness_render_inv, rfl, ⟨_, rfl⟩, by decide⟩

theorem test_witness_InterruptedRenderShowsOneValue :
    State.Inv { aboutToRender with irqQueue := [0x300000000D#40], counter := 999 } ∧
      Infallible { aboutToRender with irqQueue := [0x300000000D#40], counter := 999 } ∧ aboutToRender.seq = .idle ∧
      aboutToRender.bgQueue = [encode (.render 4294967295)] ∧
      aboutToRender.dispCfg = some wiringW.disp ∧ aboutToRender.chanCfg = some wiringW.chan :=
  ⟨⟨by decide, by decide, rfl⟩, rfl, rfl, by decide, rfl, rfl⟩

theorem test_witness_RenderLeavesItsLinesDeasserted :
    aboutToRender.bgQueue = [encode (.render 4294967295)] ∧
      [wiringW.disp.hundreds, wiringW.disp.tens, wiringW.disp.units, wiringW.chan.cs].Nodup := by decide

/-- Its premise on the levels, and `k` at both ends. -/
theorem test_witness_OneSelectLineAtATime :
    aboutToRenderDark.bgQueue = [encode (.render 4294967295)] ∧ 18 ≤ 18 ∧ 0 ≤ 18 ∧
      aboutToRenderDark.lineLevel ⟨1, 0⟩ = some .deasserted ∧ aboutToRenderDark.lineLevel ⟨1, 1⟩ = some .deasserted ∧
      aboutToRenderDark.lineLevel ⟨1, 2⟩ = some .deasserted :=
  ⟨by decide, by decide, by decide, rfl, rfl, rfl⟩

/-- The draw that fails, for a `RENDER` and for an `XMIT`, and the draw that does not. -/
theorem test_witness_FailedTransmitClosesAndAborts :
    (fallibleWith (rjob 5 1 2) true).Inv ∧ (fallibleWith (rjob 5 1 2) true).takeDraw.1 = true ∧
    PerDigit.get (rjob 5 1 2).digit 1 = some 0 ∧ PerDigit.get (rjob 5 1 2).sel 1 = some ⟨1, 1⟩ ∧
    (fallibleWith { xmitJob wiringW.chan 3 with phase := 2 } true).Inv ∧
    PerDigit.get (xmitJob wiringW.chan 3).digit 0 = some 3 ∧
    (fallibleWith (rjob 5 1 2) false).takeDraw.1 = false :=
  ⟨⟨by decide, by decide, rfl, rfl, fun h => absurd h Bool.false_ne_true, ⟨_, rfl, rfl⟩, _, rfl⟩, rfl, rfl, rfl,
    ⟨by decide, by decide, rfl, rfl, fun h => absurd h Bool.false_ne_true, rfl, .inr (.inl rfl), rfl, _, rfl⟩, rfl, rfl⟩

theorem test_witness_InfallibleRunsNeverAnswerTransmitFailed :
    (busyWith (rjob 407 1 2)).Inv ∧ Infallible (busyWith (rjob 407 1 2)) ∧
      ∃ t, step (busyWith (rjob 407 1 2)) = .next t := ⟨test_witness_render_inv, rfl, _, rfl⟩

theorem test_witness_StartedJobRunsToItsResponse :
    (fallibleWith { rjob 999 2 5 with failed := true } false).Inv ∧
      (fallibleWith { rjob 999 2 5 with failed := true } false).irqQueue = [] :=
  ⟨test_witness_failed_job_inv, rfl⟩

/-- Each clause of `EVENT`: no button bound; another pin; the button pin without an LED and with one; 998, 999 and above. -/
theorem test_witness_EventTogglesAndCounts :
    State.reset.btnCfg = none ∧ (conf.btnCfg = some 13 ∧ (12 : PinId) ≠ 13) ∧
    State.ledCfg { conf with ledCfg := none } = none ∧ conf.ledCfg = some ⟨0, 5⟩ ∧
    nextWith (exec (.event 13) (confAt 998)) (fun t => t.counter == 999) = true ∧
    nextWith (exec (.event 13) (confAt 999)) (fun t => t.counter == 0) = true ∧
    nextWith (exec (.event 13) (confAt 4294967295)) (fun t => t.counter == 0) = true := by decide

theorem test_witness_OtherPinsAreIgnored : conf.btnCfg = some 13 ∧ (12 : PinId) ≠ 13 := by decide

theorem test_witness_RdcntAnswersTheCounter :
    State.Inv { busyWith (xmitJob wiringW.chan 3) with counter := 999 } ∧ (∃ t, exec .rdcnt (confAt 999) = .next t) ∧
      ∃ t, step (busyWith (rjob 407 1 2)) = .next t := ⟨test_witness_xmit_inv, ⟨_, rfl⟩, _, rfl⟩

/-- Two steps, a qualifying event at the wrap and one on another pin. -/
theorem test_witness_CounterCountsTheDeliveredEvents :
    (confAt 999).counter ≤ 999 ∧ (confAt 999).btnCfg = some 13 ∧ (confAt 999).ledCfg = some ⟨0, 5⟩ ∧
      ∃ t, runSteps 2 { confAt 999 with irqQueue := [0x300000000D#40, 0x300000000C#40] } = .next t :=
  ⟨by decide, rfl, rfl, _, rfl⟩

theorem test_witness_EventCommutesWithSequencerStep :
    (busyWith (rjob 5 2 5)).seq = .busy (rjob 5 2 5) ∧ ∃ t, exec (.event 13) (busyWith (rjob 5 2 5)) = .next t :=
  ⟨rfl, _, rfl⟩

theorem test_witness_TogglesFlipTheLevel :
    ∀ v, Action.set ⟨0, 5⟩ v ∉ [Action.toggle ⟨0, 5⟩, .set ⟨1, 6⟩ .asserted, .toggle ⟨0, 5⟩, .delay 1] := by
  intro v
  cases v <;> decide

/-- The LED line is none of the display's lines; at the wrap the level and the counter's parity agree. -/
theorem test_witness_LedParityFollowsTheCounter :
    State.Inv { confAt 999 with trace := [.toggle ⟨0, 5⟩], irqQueue := [0x300000000D#40] } ∧
    conf.ledCfg = some ⟨0, 5⟩ ∧ LedLineOwn conf ⟨0, 5⟩ ∧
    levelFrom (some .deasserted) ⟨0, 5⟩ [.toggle ⟨0, 5⟩] =
      some (levelAfterToggles .deasserted (confAt 999).counter) ∧
    ∃ t, step { confAt 999 with trace := [.toggle ⟨0, 5⟩], irqQueue := [0x300000000D#40] } = .next t := by
  refine ⟨⟨by decide, by decide, rfl⟩, rfl, ⟨?_, ?_⟩, by decide, _, rfl⟩
  · intro d hd
    obtain rfl : wiringW.disp = d := Option.some.inj hd
    decide
  · intro c hc
    obtain rfl : wiringW.chan = c := Option.some.inj hc
    decide

theorem test_witness_FrameOfConfigurationCommands :
    (∃ t, exec (.cfgLed ⟨0, 5⟩) State.reset = .next t) ∧ (∃ t, exec (.cfgBtn 0) State.reset = .next t) ∧
    (∃ t, exec (.cfgDisp ⟨1, 0⟩ ⟨1, 1⟩ ⟨1, 2⟩) conf = .next t) ∧ ∃ t, exec (.cfgChan 1 ⟨1, 6⟩) conf = .next t :=
  ⟨⟨_, rfl⟩, ⟨_, rfl⟩, ⟨_, rfl⟩, _, rfl⟩

theorem test_witness_FrameOfReadingAndJobCommands :
    (∃ t, exec (.enc 0) conf = .next t) ∧ (∃ t, exec .rdcnt conf = .next t) ∧
    (∃ t, exec (.render 999) conf = .next t) ∧ ∃ t, exec (.xmit 3) State.reset = .next t :=
  ⟨⟨_, rfl⟩, ⟨_, rfl⟩, ⟨_, rfl⟩, _, rfl⟩

theorem test_witness_FrameOfEvent : ∃ t, exec (.event 13) (confAt 999) = .next t := ⟨_, rfl⟩

/-- A machine with a job in progress, a word and an event waiting. -/
theorem test_witness_EveryRunCompletes :
    State.Inv { busyWith (rjob 407 1 2) with bgQueue := [0x12000003E7#40], irqQueue := [0x300000000D#40] } :=
  ⟨by decide, by decide, rfl, rfl, fun h => absurd h Bool.false_ne_true, ⟨_, rfl, rfl⟩, _, rfl⟩

theorem test_witness_ResponseWordsReadBack : 5 ≤ (5#4 : BitVec 4).toNat ∧ 5 ≤ (15#4 : BitVec 4).toNat := by decide

/-- Both sides of every bound of a field. -/
theorem test_assembler_field_bounds :
    SrcInstr.toInstr (.event 15) = some (.event 15) ∧ SrcInstr.toInstr (.event 16) = none ∧
    SrcInstr.toInstr (.render 4294967295) = some (.render 4294967295) ∧ SrcInstr.toInstr (.render 4294967296) = none ∧
    SrcInstr.toInstr (.cfgChan 15 ⟨15, 0⟩) = some (.cfgChan 15 ⟨15, 0⟩) ∧ SrcInstr.toInstr (.cfgChan 16 ⟨15, 0⟩) = none ∧
    SrcInstr.toInstr (.cfgLed ⟨15, 15⟩) = some (.cfgLed ⟨15, 15⟩) := by decide

end Sys2Proof.Tests
end

/-! PROOFS. The statements about the state and its step (10_state.md): who writes the counter (R21), and what a busy
sequencer leaves to each agent (R37). -/

namespace Sys2Proof.Machine

/-! ### The counter (R21) -/

/-- What a step does to the counter and the parameters: it writes the counter only where it takes an `EVENT` of the
configured button pin off the IRQ queue, and then the counter goes on by one event (42_counter_event.md R161). -/
theorem step_counter {s t : State} (h : step s = .next t) :
    t.params = s.params ∧
      (t.counter = s.counter ∨
        ∃ w b, s.irqQueue = w :: t.irqQueue ∧ decode .irq w = .instr (.event b) ∧ s.btnCfg = some b ∧
          t.counter = nextCount s.counter) := by
  obtain ⟨-, -, rfl⟩ | ⟨ts, n, ⟨j, -, rfl⟩ | ⟨w, rest, -, -, -, hw⟩ | ⟨w, rest, hq, hw⟩⟩ := step_cases h
  case inl => exact ⟨rfl, .inl rfl⟩
  case inr.inl =>
    obtain ⟨hc, -, -, -, -, -, -, hp, -⟩ := seqStep_frame j { s with turns := ts, freeIx := n }
    exact ⟨hp, .inl hc⟩
  case inr.inr.inl =>
    obtain ⟨hc, -, -, hp, -⟩ := issueWord_frame hw
    exact ⟨hp, .inl hc⟩
  case inr.inr.inr =>
    obtain ⟨ht, ⟨hc, -, -⟩ | ⟨b, hd, hb, hc, -⟩⟩ := deliverWord_frame hw <;> rw [ht]
    · exact ⟨rfl, .inl hc⟩
    · exact ⟨rfl, .inr ⟨w, b, hq, hd, hb, hc⟩⟩

/-- A step keeps the counter within the `WORD_BITS` of the run: the counter it may write is at most `COUNT_MAX`. -/
theorem step_counter_lt_two_pow {s t : State} (hw : Config.minWordBits ≤ s.params.wordBits)
    (hs : s.counter < 2 ^ s.params.wordBits) (h : step s = .next t) : t.counter < 2 ^ t.params.wordBits := by
  obtain ⟨hp, hc | ⟨-, -, -, -, -, hc⟩⟩ := step_counter h <;> rw [hp, hc]
  · exact hs
  · exact lt_two_pow_wordBits (nextCount_le s.counter) hw

/-- The next state of `RDCNT` (42_counter_event.md R170). -/
theorem exec_rdcnt_eq {s t : State} (h : exec .rdcnt s = .next t) : t = s.respond .ok (counterVal s.counter) :=
  (Host.Outcome.next.inj h).symm

/-- Settles O15: `step_counter` says which steps write the counter, `execBg_frame` that no BG command does, and
`exec_rdcnt_eq` what `RDCNT` answers. -/
theorem onlyQualifyingEventsWriteTheCounter : Obligations.OnlyQualifyingEventsWriteTheCounter := by
  refine ⟨rfl, fun s t hw hs h => step_counter_lt_two_pow hw hs h, fun s t h => ?_, fun i s t hi h => ?_,
    fun s t h => ?_⟩
  · obtain ⟨-, hc | ⟨w, b, hq, hd, hb, -⟩⟩ := step_counter h
    · exact .inl hc
    · exact .inr ⟨w, t.irqQueue, b, hq, rfl, hd, hb⟩
  · obtain ⟨hc, -⟩ := execBg_frame hi h
    exact hc
  · rw [exec_rdcnt_eq h]
    exact ⟨⟨.ok, counterVal s.counter⟩, rfl, counterVal_toNat⟩

/-! ### The two agents beside a busy sequencer (R37) -/

/-- A step of a busy machine: the next sequencer step, or a delivery, which leaves the job, the words to issue and the
responses as they are. -/
theorem step_busy_cases {s t : State} {j : Job} (hs : s.seq = .busy j) (h : step s = .next t) :
    (∃ ts n, t = seqStep j { s with turns := ts, freeIx := n }) ∨
      (∃ w, s.irqQueue = w :: t.irqQueue ∧ t.seq = .busy j ∧ t.bgQueue = s.bgQueue ∧ t.responses = s.responses) := by
  obtain ⟨hb, -, -⟩ | ⟨ts, n, ⟨j', hj, ht⟩ | ⟨w, rest, hi, -⟩ | ⟨w, rest, hq, hw⟩⟩ := step_cases h
  case inl => simp [State.bgReady, hs] at hb
  case inr.inl =>
    obtain rfl : j = j' := Seq.busy.inj (hs.symm.trans hj)
    exact .inl ⟨ts, n, ht⟩
  case inr.inr.inl => simp [hs] at hi
  case inr.inr.inr =>
    obtain ⟨ht, -⟩ := deliverWord_frame hw
    rw [ht]
    exact .inr ⟨w, hq, hs, rfl, rfl⟩

/-- A sequencer step leaves the words to issue as they are. -/
@[simp] theorem seqStep_bgQueue (j : Job) (s : State) : (seqStep j s).bgQueue = s.bgQueue := by
  obtain ⟨-, -, -, -, -, -, -, -, hq, -⟩ := seqStep_frame j s
  exact hq

/-- Where an event waits and the next of the turns is IRQ's, IRQ goes next; the turn is taken off only where BG has a step
too, since only then is there a choice (60_exceptions.md R228). -/
theorem nextAgent_irq_turn {s : State} (hi : s.irqReady = true) (ts : List Agent) :
    nextAgent { s with turns := .irq :: ts } =
      some (.irq, { s with turns := if s.bgReady then ts else .irq :: ts }) := by
  have hi' : State.irqReady { s with turns := .irq :: ts } = true := hi
  have hb' : State.bgReady { s with turns := .irq :: ts } = s.bgReady := rfl
  unfold nextAgent
  rw [hi', hb']
  cases s.bgReady <;> rfl

/-- The step of IRQ delivers the first word of its queue. -/
theorem irqStep_cons {s : State} {w : CmdWord} {rest : List CmdWord} (hq : s.irqQueue = w :: rest) :
    irqStep s = deliverWord w { s with irqQueue := rest } := by
  unfold irqStep
  rw [hq]

/-- Where an event waits and the next of the turns is IRQ's, the step delivers the event. -/
theorem step_irq_turn {s : State} {w : CmdWord} {rest : List CmdWord} (hq : s.irqQueue = w :: rest)
    (ts : List Agent) :
    step { s with turns := .irq :: ts } =
      deliverWord w { s with irqQueue := rest, turns := if s.bgReady then ts else .irq :: ts } := by
  have hi : s.irqReady = true := by simp [State.irqReady, hq]
  unfold step machineStep
  rw [nextAgent_irq_turn hi]
  exact irqStep_cons hq

/-- Settles O20: `step_busy_cases` for a busy machine, `step_busy` where no event waits, and `step_irq_turn` for the turns
that let IRQ step. -/
theorem busySequencerBlocksBg : Obligations.BusySequencerBlocksBg := by
  refine ⟨fun s t j hs h => ?_, fun s j hs hi => step_busy hs hi, fun s w rest hq => ?_⟩
  · obtain ⟨ts, n, rfl⟩ | ⟨w, hq, hj, hbg, hr⟩ := step_busy_cases hs h
    · exact ⟨seqStep_bgQueue j _, .inl ⟨ts, n, rfl⟩⟩
    · exact ⟨hbg, .inr ⟨w, hq, hj, hr⟩⟩
  · exact ⟨[.irq], if s.bgReady then [] else [.irq], step_irq_turn hq []⟩

end Sys2Proof.Machine

/-! PROOFS. The statements about the digit multiplexer's operands and its slots (41_digit_multiplexer.md R120, R123). -/

namespace Sys2Proof.Machine

/-! ### The three digits of a value (R120) -/

section
variable (v : Val)

@[simp] theorem decompose_units_val : (decompose v).units.val = v.toNat % 10 := rfl
@[simp] theorem decompose_tens_val : (decompose v).tens.val = v.toNat / 10 % 10 := rfl
@[simp] theorem decompose_hundreds_val : (decompose v).hundreds.val = v.toNat / 100 % 10 := rfl

end

/-- Settles O29: the three formulas are `decompose`'s own, and a digit is below 10 by its type. -/
theorem decomposeGivesTheThreeDigits : Obligations.DecomposeGivesTheThreeDigits := fun v =>
  ⟨decompose_units_val v, decompose_tens_val v, decompose_hundreds_val v,
    Fin.is_le (decompose v).units, Fin.is_le (decompose v).tens, Fin.is_le (decompose v).hundreds⟩

/-! ### The slots of a job (R123) -/

/-- A triple with every entry present has the entry of the bare triple at each slot. -/
@[simp] theorem PerDigit.get_present {α : Type} (d : PerDigit α) (p : Fin 3) :
    PerDigit.get (PerDigit.present d) p = some (PerDigit.get d p) := by
  match p with
  | 0 => rfl
  | 1 => rfl
  | 2 => rfl

/-- Where a job has a line at its slot, that is the line its actions name: the free value of a dash is not read. -/
theorem Job.line_of_get {j : Job} {l : LineId} (h : PerDigit.get j.sel j.slot = some l) : j.line = l := by
  simp [Job.line, h]

/-- Where a job has a digit at its slot, that is the digit it transmits. -/
theorem Job.digitNow_of_get {j : Job} {i : Digit} (h : PerDigit.get j.digit j.slot = some i) : j.digitNow = i := by
  simp [Job.digitNow, h]

/-- A sequencer step draws at phase 2 only: at any other phase it is the action and the advance (R126, R132). -/
theorem seqStep_of_phase_ne_two {j : Job} (s : State) (hp : j.phase ≠ 2) :
    seqStep j s = seqAdvance j (s.emit (seqAction s.params s.segRom j)) := by
  obtain ⟨h2, -⟩ | ⟨-, hd⟩ := seqDraw_cases j (s.emit (seqAction s.params s.segRom j))
  · exact absurd h2 hp
  · unfold seqStep
    rw [hd]

/-- Phase 5 is the last of a slot: from slot 0 or 1 of a job that has not failed, the job goes on at phase 0 of the next
slot (R126). -/
theorem seqStep_nextSlot {j : Job} (s : State) (hp : j.phase = 5) (hf : j.failed = false) (hs : j.slot ≠ 2) :
    (seqStep j s).seq = .busy { j with slot := j.slot + 1, phase := 0 } := by
  rw [seqStep_of_phase_ne_two s (by simp [hp])]
  obtain ⟨-, h3, -⟩ | ⟨-, h3, -⟩ | ⟨-, hl, -⟩ | ⟨-, -, -, h⟩ | ⟨h5, -⟩ :=
    seqAdvance_cases j (s.emit (seqAction s.params s.segRom j))
  · simp [hp] at h3
  · simp [hp] at h3
  · simp [hf, hs] at hl
  · rw [h, State.continueJob_seq]
  · exact absurd hp h5

/-- The last action of slot 2 ends the job (R126). -/
theorem seqStep_lastSlot {j : Job} (s : State) (hp : j.phase = 5) (hs : j.slot = 2) : (seqStep j s).seq = .idle := by
  rw [seqStep_of_phase_ne_two s (by simp [hp])]
  obtain ⟨-, -, h⟩ | ⟨-, h3, -⟩ | ⟨-, -, h⟩ | ⟨-, -, hl, -⟩ | ⟨h5, -⟩ :=
    seqAdvance_cases j (s.emit (seqAction s.params s.segRom j))
  · rw [h, State.finishJob_seq]
  · simp [hp] at h3
  · rw [h, State.finishJob_seq]
  · exact absurd hs hl
  · exact absurd hp h5

section
variable (d : PerDigit LineId) (c : TransmitChannel) (v : Val) (p : Fin 3)

/-- The line at each slot of a `RENDER`'s job is that of `DISP_CFG` (R124). -/
@[simp] theorem renderJob_sel_get : PerDigit.get (renderJob d c v).sel p = some (PerDigit.get d p) :=
  PerDigit.get_present d p

/-- The digit at each slot of a `RENDER`'s job is that of `Decompose` (R124). -/
@[simp] theorem renderJob_digit_get : PerDigit.get (renderJob d c v).digit p = some (PerDigit.get (decompose v) p) :=
  PerDigit.get_present (decompose v) p

end

/-- Settles O31: `renderJob_sel_get` and `renderJob_digit_get` give the entry of every slot, `seqStep_nextSlot` and
`seqStep_lastSlot` the order the slots run in. -/
theorem slotsAreHundredsTensUnits : Obligations.SlotsAreHundredsTensUnits := by
  refine ⟨?_, fun s j _ hp hf => ⟨fun h0 => ?_, fun h1 => ?_, fun h2 => seqStep_lastSlot s hp h2⟩⟩
  · rintro d c v j rfl
    have hsel := renderJob_sel_get d c v
    have hdigit := renderJob_digit_get d c v
    refine ⟨⟨rfl, hsel 0, hsel 1, hsel 2⟩, hdigit 0, hdigit 1, hdigit 2, fun p => ⟨?_, ?_⟩⟩
    · rw [hsel p, Job.line_of_get (hsel p)]
    · rw [hdigit p, Job.digitNow_of_get (hdigit p)]
  · rw [seqStep_nextSlot s hp hf (by simp [h0]), h0]
    rfl
  · rw [seqStep_nextSlot s hp hf (by simp [h1]), h1]
    rfl

end Sys2Proof.Machine

/-! PROOFS. The statements about `EVENT` and `RDCNT` (42_counter_event.md R161, R164, R170). -/

namespace Sys2Proof.Machine

/-! ### The words of the two commands (30_encoding.md R74) -/

section
variable (d : Val)

/-- On IRQ the opcode of `EVENT` is the command where the reserved bits are zero; else the word is ignored (R78). -/
theorem decode_irq_mkWord_event :
    decode .irq (mkWord 0x30#8 d) =
      if d.extractLsb' 4 28 = 0#28 then .instr (.event (d.extractLsb' 0 4)) else .ignored := by
  simp [decode, decodeIrq]

/-- On IRQ every opcode but that of `EVENT` is ignored (R78). -/
theorem decode_irq_mkWord_of_ne {o : BitVec 8} (ho : o ≠ 0x30#8) : decode .irq (mkWord o d) = .ignored := by
  simp [decode, decodeIrq, ho]

/-- On BG the opcode of `EVENT` is illegal, whatever its data field (R76). -/
theorem decode_bg_mkWord_event : decode .bg (mkWord 0x30#8 d) = .illegal (mkWord 0x30#8 d) := by
  simp [decode, decodeBg]

/-- On BG the opcode of `RDCNT` is the command where the data field is zero; else the word is illegal (R77). -/
theorem decode_bg_mkWord_rdcnt :
    decode .bg (mkWord 0x20#8 d) = if d = 0#32 then .instr .rdcnt else .illegal (mkWord 0x20#8 d) := by
  simp [decode, decodeBg]

end

/-- The word of an `EVENT` reads back on IRQ. -/
theorem decode_irq_encode_event (p : PinId) : decode .irq (encode (.event p)) = .instr (.event p) := by
  unfold encode
  rw [decode_irq_mkWord_event, fPin_zero, fPin_pin, if_pos rfl]

/-- Delivering the word of an `EVENT` runs it. -/
theorem deliverWord_encode_event (p : PinId) (s : State) :
    deliverWord (encode (.event p)) s = exec (.event p) s := by
  unfold deliverWord
  rw [decode_irq_encode_event]

/-! ### `EVENT` (R161) -/

/-- An event on a pin that is not the configured button pin changes nothing (R164). -/
theorem exec_event_of_ne {p : PinId} {s : State} (hb : s.btnCfg ≠ some p) : exec (.event p) s = .next s :=
  if_neg (by simpa [State.qualifies] using hb)

/-- An event on the button pin toggles the LED and advances the counter. -/
theorem exec_event_of_button {b : PinId} {s : State} (hb : s.btnCfg = some b) :
    exec (.event b) s = .next { s.toggleLed with counter := nextCount s.counter } :=
  if_pos (by simp [State.qualifies, hb])

/-- With no LED bound, the toggle does nothing (R165). -/
theorem State.toggleLed_of_none {s : State} (hl : s.ledCfg = none) : s.toggleLed = s := by
  obtain ⟨-, h⟩ | ⟨l, hl', -⟩ := s.toggleLed_spec
  · exact h
  · simp [hl] at hl'

/-- With an LED bound, the toggle is one action on its line. -/
theorem State.toggleLed_of_some {s : State} {l : LineId} (hl : s.ledCfg = some l) :
    s.toggleLed = s.emit (.toggle l) := by
  obtain ⟨hn, -⟩ | ⟨l', hl', h⟩ := s.toggleLed_spec
  · simp [hl] at hn
  · obtain rfl : l = l' := Option.some.inj (hl.symm.trans hl')
    exact h

/-- Settles O43: the decoder's two answers to the opcode of `EVENT`, `exec_event_of_ne` for an unset button and another
pin, and `exec_event_of_button` with the toggle's two cases for the button pin. -/
theorem eventTogglesAndCounts : Obligations.EventTogglesAndCounts := by
  refine ⟨decode_irq_mkWord_event, decode_bg_mkWord_event, fun p s hb => ?_, fun p b s hb hp => ?_,
    fun b s hb hl => ?_, fun b l s hb hl => ?_⟩
  · exact exec_event_of_ne (by simp [hb])
  · exact exec_event_of_ne (by simpa [hb] using hp.symm)
  · rw [exec_event_of_button hb, State.toggleLed_of_none hl]
    rfl
  · rw [exec_event_of_button hb, State.toggleLed_of_some hl]
    rfl

/-- Settles O44: the delivered word runs the event, and `exec_event_of_ne` says that it changes nothing. -/
theorem otherPinsAreIgnored : Obligations.OtherPinsAreIgnored := by
  intro p b s hb hp
  rw [deliverWord_encode_event]
  exact exec_event_of_ne (by simpa [hb] using hp.symm)

/-! ### `RDCNT` (R170) -/

/-- `RDCNT` answers `OK` with the counter, in every state. -/
theorem exec_rdcnt (s : State) : exec .rdcnt s = .next (s.respond .ok (counterVal s.counter)) := rfl

/-- Within the invariant the counter is at most `COUNT_MAX` (10_state.md R22). -/
theorem State.Inv.counter_le {s : State} (h : s.Inv) : s.counter ≤ Config.countMax := by
  obtain ⟨hc, -⟩ := h
  exact hc

/-- No step of a busy machine issues a word (10_state.md R37). -/
theorem step_busy_bgQueue {s t : State} {j : Job} (hs : s.seq = .busy j) (h : step s = .next t) :
    t.bgQueue = s.bgQueue := by
  obtain ⟨ts, n, rfl⟩ | ⟨w, -, -, hq, -⟩ := step_busy_cases hs h
  · exact seqStep_bgQueue j _
  · exact hq

/-- Settles O45: the decoder's two answers to the opcode of `RDCNT`, `exec_rdcnt` for the answer, the invariant's range of
the counter for its bound, and `step_busy_bgQueue` for the busy sequencer. -/
theorem rdcntAnswersTheCounter : Obligations.RdcntAnswersTheCounter := by
  refine ⟨decode_bg_mkWord_rdcnt, fun d => decode_irq_mkWord_of_ne d (by decide),
    fun s => ⟨counterVal s.counter, exec_rdcnt s, counterVal_toNat⟩, fun s t h => ?_, exec_rdcnt State.reset,
    fun s hs => ?_, fun s t j hs h => step_busy_bgQueue hs h⟩
  · rw [exec_rdcnt_eq h, State.respond_counter]
  · have hc : s.counter ≤ 999 := hs.counter_le
    have hv : (counterVal s.counter).toNat = s.counter := counterVal_toNat (by omega)
    exact ⟨counterVal s.counter, exec_rdcnt s, hv, hv.trans_le hc⟩

end Sys2Proof.Machine

/-! PROOFS. The statements about the four configuration commands (43_configuration.md R190 to R193). -/

namespace Sys2Proof.Machine

/-! ### The words of the commands (30_encoding.md R74, R77) -/

section
variable (d : Val)

/-- The opcode of `CFG_LED` is the command where the reserved bits are zero, its line in the two halves of `F_LINE`. -/
theorem decode_bg_mkWord_cfgLed :
    decode .bg (mkWord 0x01#8 d) =
      if d.extractLsb' 8 24 = 0 then .instr (.cfgLed ⟨d.extractLsb' 4 4, d.extractLsb' 0 4⟩)
      else .illegal (mkWord 0x01#8 d) := by
  simp [decode, decodeBg, ofBits_extract]

/-- The opcode of `CFG_BTN` is the command where the reserved bits are zero. -/
theorem decode_bg_mkWord_cfgBtn :
    decode .bg (mkWord 0x02#8 d) =
      if d.extractLsb' 4 28 = 0 then .instr (.cfgBtn (d.extractLsb' 0 4)) else .illegal (mkWord 0x02#8 d) := by
  simp [decode, decodeBg]

/-- The opcode of `CFG_DISP` is the command where the reserved bits are zero, the hundreds line in the highest of the
three LineId fields and the units line in the lowest. -/
theorem decode_bg_mkWord_cfgDisp :
    decode .bg (mkWord 0x03#8 d) =
      if d.extractLsb' 24 8 = 0 then
        .instr (.cfgDisp ⟨d.extractLsb' 20 4, d.extractLsb' 16 4⟩ ⟨d.extractLsb' 12 4, d.extractLsb' 8 4⟩
          ⟨d.extractLsb' 4 4, d.extractLsb' 0 4⟩)
      else .illegal (mkWord 0x03#8 d) := by
  simp [decode, decodeBg, ofBits_extract]

/-- The opcode of `CFG_CHAN` is the command where the reserved bits are zero, the channel above the line of `CS`. -/
theorem decode_bg_mkWord_cfgChan :
    decode .bg (mkWord 0x04#8 d) =
      if d.extractLsb' 12 20 = 0 then .instr (.cfgChan (d.extractLsb' 8 4) ⟨d.extractLsb' 4 4, d.extractLsb' 0 4⟩)
      else .illegal (mkWord 0x04#8 d) := by
  simp [decode, decodeBg, ofBits_extract]

end

/-! ### The commands as write-once bindings (R194) -/

/-- With its register unset, a configuration command binds it and answers `OK`. -/
theorem State.bindOnce_of_none {α : Type} {s bound : State} {cur : Option α} (h : cur = none) :
    s.bindOnce cur bound = bound.respond .ok 0 := by
  obtain ⟨-, hb⟩ | ⟨x, hx, -⟩ := s.bindOnce_cases cur bound
  · exact hb
  · simp [h] at hx

/-- With its register set, a configuration command answers `ALREADY_CONFIGURED` and binds nothing. -/
theorem State.bindOnce_of_some {α : Type} {s bound : State} {cur : Option α} {x : α} (h : cur = some x) :
    s.bindOnce cur bound = s.raise .alreadyConfigured := by
  obtain ⟨hn, -⟩ | ⟨-, -, hb⟩ := s.bindOnce_cases cur bound
  · simp [h] at hn
  · exact hb

section
variable (s : State)

theorem exec_cfgLed (l : LineId) :
    exec (.cfgLed l) s = .next (s.bindOnce s.ledCfg { s with ledCfg := some l }) := rfl

theorem exec_cfgBtn (p : PinId) :
    exec (.cfgBtn p) s = .next (s.bindOnce s.btnCfg { s with btnCfg := some p }) := rfl

theorem exec_cfgDisp (h t u : LineId) :
    exec (.cfgDisp h t u) s = .next (s.bindOnce s.dispCfg { s with dispCfg := some ⟨h, t, u⟩ }) := rfl

theorem exec_cfgChan (c : ChannelId) (l : LineId) :
    exec (.cfgChan c l) s = .next (s.bindOnce s.chanCfg { s with chanCfg := some ⟨c, l⟩ }) := rfl

end

/-- The events that qualify are those of the bound button pin, pin 0 like any other (42_counter_event.md R165). -/
theorem State.qualifies_iff {s : State} {p : PinId} : s.qualifies p = true ↔ s.btnCfg = some p := beq_iff_eq

/-- Settles O21: the decoder's two answers to the opcode of `CFG_LED`, and `exec_cfgLed` with the two cases of
`State.bindOnce`. -/
theorem cfgLedBindsTheLed : Obligations.CfgLedBindsTheLed := by
  refine ⟨decode_bg_mkWord_cfgLed, fun d => decode_irq_mkWord_of_ne d (by decide), fun l s hs => ?_,
    fun l x s hs => ?_⟩
  · rw [exec_cfgLed, State.bindOnce_of_none hs]
    rfl
  · rw [exec_cfgLed, State.bindOnce_of_some hs]
    rfl

/-- Settles O22: the decoder's two answers to the opcode of `CFG_BTN`, `exec_cfgBtn` with the two cases of
`State.bindOnce`, and `State.qualifies_iff` for the event of pin 0. -/
theorem cfgBtnBindsTheButton : Obligations.CfgBtnBindsTheButton := by
  refine ⟨decode_bg_mkWord_cfgBtn, fun d => decode_irq_mkWord_of_ne d (by decide), fun p s hs => ?_,
    fun p x s hs => ?_, fun s t hs h => ?_⟩
  · rw [exec_cfgBtn, State.bindOnce_of_none hs]
    rfl
  · rw [exec_cfgBtn, State.bindOnce_of_some hs]
    rfl
  · rw [exec_cfgBtn, State.bindOnce_of_none hs] at h
    obtain rfl := Host.Outcome.next.inj h
    have hb : (State.respond { s with btnCfg := some 0 } .ok 0).btnCfg = some 0 := State.respond_btnCfg _ _ _
    exact ⟨hb, State.qualifies_iff.mpr hb⟩

/-- Settles O23: the decoder's two answers to the opcode of `CFG_DISP`, and `exec_cfgDisp` with the two cases of
`State.bindOnce`. -/
theorem cfgDispBindsTheSelectLines : Obligations.CfgDispBindsTheSelectLines := by
  refine ⟨decode_bg_mkWord_cfgDisp, fun d => decode_irq_mkWord_of_ne d (by decide), fun h t u s hs => ?_,
    fun h t u x s hs => ?_⟩
  · rw [exec_cfgDisp, State.bindOnce_of_none hs]
    rfl
  · rw [exec_cfgDisp, State.bindOnce_of_some hs]
    rfl

/-- Settles O24: the decoder's two answers to the opcode of `CFG_CHAN`, and `exec_cfgChan` with the two cases of
`State.bindOnce`. -/
theorem cfgChanBindsTheChannel : Obligations.CfgChanBindsTheChannel := by
  refine ⟨decode_bg_mkWord_cfgChan, fun d => decode_irq_mkWord_of_ne d (by decide), fun c l s hs => ?_,
    fun c l x s hs => ?_⟩
  · rw [exec_cfgChan, State.bindOnce_of_none hs]
    rfl
  · rw [exec_cfgChan, State.bindOnce_of_some hs]
    rfl

end Sys2Proof.Machine

/-! PROOFS. The statements about the words of the commands (30_encoding.md): decode and encode agree (R72, R75), the
rows of the opcode map (R74), and the illegal and ignored words (R76 to R78). -/

namespace Sys2Proof.Machine

/-! ### The words of the value commands (30_encoding.md R74) -/

section
variable (d : Val)

theorem decode_bg_mkWord_enc : decode .bg (mkWord 0x10#8 d) = .instr (.enc d) := by simp [decode, decodeBg]

theorem decode_bg_mkWord_xmit : decode .bg (mkWord 0x11#8 d) = .instr (.xmit d) := by simp [decode, decodeBg]

theorem decode_bg_mkWord_render : decode .bg (mkWord 0x12#8 d) = .instr (.render d) := by simp [decode, decodeBg]

end

/-! ### Decode of encode -/

/-- The word of a BG command reads back on BG. -/
theorem decode_bg_encode {i : Instr} (hi : i.port = .bg) : decode .bg (encode i) = .instr i := by
  cases i with
  | event n => simp [Instr.port] at hi
  | _ => simp [decode, decodeBg, encode]

/-- Settles O1: `decode_bg_encode` for the commands of BG, `decode_irq_encode_event` for the one of IRQ. -/
theorem decodeOfEncodeIsTheInstruction : Obligations.DecodeOfEncodeIsTheInstruction := by
  intro i
  cases i with
  | event n => exact decode_irq_encode_event n
  | _ => exact decode_bg_encode rfl

/-! ### Encode of decode -/

/-- A data field whose upper `m` bits are zero is zeros above its lower `n` bits. -/
theorem zero_append_extract {m n : Nat} {d : BitVec (m + n)} (h : d.extractLsb' n m = 0#m) :
    0#m ++ d.extractLsb' 0 n = d := by
  rw [← h]
  exact append_extract d

/-- A data field that holds three LineIds below eight zero bits, put together again (30_encoding.md R72). -/
theorem cfgDisp_fields {d : Val} (h : d.extractLsb' 24 8 = 0#8) :
    0#8 ++ d.extractLsb' 16 8 ++ d.extractLsb' 8 8 ++ d.extractLsb' 0 8 = d := by
  rw [← h]
  exact append_extract_four (j := 8) (k := 8) (m := 8) (n := 8) d

/-- A data field that holds a channel and a LineId below twenty zero bits, put together again (R72). -/
theorem cfgChan_fields {d : Val} (h : d.extractLsb' 12 20 = 0#20) :
    0#20 ++ d.extractLsb' 8 4 ++ d.extractLsb' 0 8 = d := by
  rw [← h]
  exact append_extract_three (k := 20) (m := 4) (n := 8) d

/-- A word with a known opcode is that opcode above its data field. -/
theorem mkWord_of_opcode {o : BitVec 8} {w : CmdWord} (h : opcode w = o) : mkWord o (dataField w) = w := by
  rw [← h, mkWord_opcode_dataField]

/-- A word that BG reads as a command is that BG command's encoding. -/
theorem encode_of_decodeBg {w : CmdWord} {i : Instr} (h : decodeBg w = .instr i) : i.port = .bg ∧ encode i = w := by
  unfold decodeBg at h
  dsimp only at h
  split at h
  case isTrue ho =>
    split at h <;> cases h
    next hz => exact ⟨rfl, by rw [encode, LineId.toBits_ofBits, zero_append_extract hz, mkWord_of_opcode ho]⟩
  split at h
  case isTrue ho =>
    split at h <;> cases h
    next hz => exact ⟨rfl, by rw [encode, zero_append_extract hz, mkWord_of_opcode ho]⟩
  split at h
  case isTrue ho =>
    split at h <;> cases h
    next hz => exact ⟨rfl, by simp only [encode, LineId.toBits_ofBits, cfgDisp_fields hz, mkWord_of_opcode ho]⟩
  split at h
  case isTrue ho =>
    split at h <;> cases h
    next hz => exact ⟨rfl, by simp only [encode, LineId.toBits_ofBits, cfgChan_fields hz, mkWord_of_opcode ho]⟩
  split at h
  case isTrue ho =>
    cases h
    exact ⟨rfl, mkWord_of_opcode ho⟩
  split at h
  case isTrue ho =>
    cases h
    exact ⟨rfl, mkWord_of_opcode ho⟩
  split at h
  case isTrue ho =>
    cases h
    exact ⟨rfl, mkWord_of_opcode ho⟩
  split at h
  case isTrue ho =>
    split at h <;> cases h
    next hz => exact ⟨rfl, by rw [encode, ← hz, mkWord_of_opcode ho]⟩
  cases h

/-- A word that IRQ reads as a command is the encoding of an `EVENT`. -/
theorem encode_of_decodeIrq {w : CmdWord} {i : Instr} (h : decodeIrq w = .instr i) : i.port = .irq ∧ encode i = w := by
  unfold decodeIrq at h
  dsimp only at h
  split at h <;> cases h
  next hw =>
    obtain ⟨ho, hz⟩ := hw
    exact ⟨rfl, by rw [encode, zero_append_extract hz, mkWord_of_opcode ho]⟩

/-- Decode is the inverse of encode on each port: the command it reads belongs on that port and has that word. -/
theorem encode_of_decode {p : Agent} {w : CmdWord} {i : Instr} (h : decode p w = .instr i) :
    i.port = p ∧ encode i = w := by
  cases p with
  | bg => exact encode_of_decodeBg h
  | irq => exact encode_of_decodeIrq h

/-- Settles O2: `encode_of_decode`. -/
theorem decodedWordIsTheEncoding : Obligations.DecodedWordIsTheEncoding := by
  intro p w i h
  obtain ⟨hp, he⟩ := encode_of_decode h
  exact ⟨by simp [Instr.wellFormedOn, hp], he⟩

/-! ### The rows of the opcode map (R74) -/

/-- The word of every instruction matches its row. -/
theorem fitsRow (i : Instr) : encode i &&& i.row.mask = i.row.pattern := by
  cases i with
  | cfgLed l => exact Laws.FitsRow.cfgLed l
  | cfgBtn n => exact Laws.FitsRow.cfgBtn n
  | cfgDisp h t u => exact Laws.FitsRow.cfgDisp h t u
  | cfgChan c l => exact Laws.FitsRow.cfgChan c l
  | enc v => exact Laws.FitsRow.enc v
  | xmit v => exact Laws.FitsRow.xmit v
  | render v => exact Laws.FitsRow.render v
  | rdcnt => exact Laws.FitsRow.rdcnt
  | event n => exact Laws.FitsRow.event n

/-- The row of an instruction names its port. -/
theorem Instr.row_port (i : Instr) : i.row.port = i.port := by cases i <;> rfl

theorem OpcodeRow.matches_iff {r : OpcodeRow} {p : Agent} {w : CmdWord} :
    r.matches p w = true ↔ r.port = p ∧ w &&& r.mask = r.pattern := by
  simp [OpcodeRow.matches]

/-- A data field keeps nothing under a mask of its upper `m` bits exactly when those are zero. -/
theorem and_upper_eq_zero {m n : Nat} (d : BitVec (m + n)) :
    d &&& (BitVec.allOnes m ++ 0#n) = 0#m ++ 0#n ↔ d.extractLsb' n m = 0#m := by
  conv_lhs => rw [← append_extract d, BitVec.and_append]
  constructor
  · intro h
    simpa using congrArg (·.extractLsb' n m) h
  · intro h
    simp [h]

/-- A word that matches under a mask of its opcode and some data bits has that opcode, and those data bits zero. -/
theorem opcode_of_masked {o : BitVec 8} {dMask : Val} {w : CmdWord} (h : w &&& mkWord 0xFF#8 dMask = mkWord o 0#32) :
    opcode w = o ∧ dataField w &&& dMask = 0#32 := by
  have hw : mkWord (opcode w) (dataField w) &&& mkWord 0xFF#8 dMask =
      mkWord (opcode w &&& 0xFF#8) (dataField w &&& dMask) := Laws.FitsRow.split _ _ _ _ _ _ rfl rfl
  rw [mkWord_opcode_dataField, h] at hw
  have ho := congrArg opcode hw
  have hd := congrArg dataField hw
  rw [opcode_mkWord, opcode_mkWord, show (0xFF#8 : BitVec 8) = BitVec.allOnes 8 from rfl, BitVec.and_allOnes] at ho
  rw [dataField_mkWord, dataField_mkWord] at hd
  exact ⟨ho.symm, hd.symm⟩

/-- A word that matches a row of the map on its port is a command of that row. -/
theorem exists_decode_of_matches {p : Agent} {w : CmdWord} {r : OpcodeRow} (hr : r ∈ opcodeTable)
    (h : r.matches p w = true) : ∃ i : Instr, i.row = r ∧ decode p w = .instr i := by
  obtain ⟨rfl, hm⟩ := OpcodeRow.matches_iff.mp h
  simp only [opcodeTable, List.mem_cons, List.not_mem_nil, or_false] at hr
  obtain rfl | rfl | rfl | rfl | rfl | rfl | rfl | rfl | rfl := hr
  · obtain ⟨ho, hd⟩ := opcode_of_masked (o := 0x01#8) (dMask := 0xFFFFFF00#32) hm
    have hz := (and_upper_eq_zero (m := 24) (n := 8) (dataField w)).mp hd
    rw [← mkWord_of_opcode ho]
    exact ⟨_, And.symm ⟨(decode_bg_mkWord_cfgLed _).trans (if_pos hz), rfl⟩⟩
  · obtain ⟨ho, hd⟩ := opcode_of_masked (o := 0x02#8) (dMask := 0xFFFFFFF0#32) hm
    have hz := (and_upper_eq_zero (m := 28) (n := 4) (dataField w)).mp hd
    rw [← mkWord_of_opcode ho]
    exact ⟨_, And.symm ⟨(decode_bg_mkWord_cfgBtn _).trans (if_pos hz), rfl⟩⟩
  · obtain ⟨ho, hd⟩ := opcode_of_masked (o := 0x03#8) (dMask := 0xFF000000#32) hm
    have hz := (and_upper_eq_zero (m := 8) (n := 24) (dataField w)).mp hd
    rw [← mkWord_of_opcode ho]
    exact ⟨_, And.symm ⟨(decode_bg_mkWord_cfgDisp _).trans (if_pos hz), rfl⟩⟩
  · obtain ⟨ho, hd⟩ := opcode_of_masked (o := 0x04#8) (dMask := 0xFFFFF000#32) hm
    have hz := (and_upper_eq_zero (m := 20) (n := 12) (dataField w)).mp hd
    rw [← mkWord_of_opcode ho]
    exact ⟨_, And.symm ⟨(decode_bg_mkWord_cfgChan _).trans (if_pos hz), rfl⟩⟩
  · obtain ⟨ho, -⟩ := opcode_of_masked (o := 0x10#8) (dMask := 0#32) hm
    rw [← mkWord_of_opcode ho]
    exact ⟨_, And.symm ⟨decode_bg_mkWord_enc _, rfl⟩⟩
  · obtain ⟨ho, -⟩ := opcode_of_masked (o := 0x11#8) (dMask := 0#32) hm
    rw [← mkWord_of_opcode ho]
    exact ⟨_, And.symm ⟨decode_bg_mkWord_xmit _, rfl⟩⟩
  · obtain ⟨ho, -⟩ := opcode_of_masked (o := 0x12#8) (dMask := 0#32) hm
    rw [← mkWord_of_opcode ho]
    exact ⟨_, And.symm ⟨decode_bg_mkWord_render _, rfl⟩⟩
  · obtain ⟨ho, hd⟩ := opcode_of_masked (o := 0x20#8) (dMask := BitVec.allOnes 32) hm
    rw [BitVec.and_allOnes] at hd
    rw [← mkWord_of_opcode ho]
    exact ⟨_, And.symm ⟨(decode_bg_mkWord_rdcnt _).trans (if_pos hd), rfl⟩⟩
  · obtain ⟨ho, hd⟩ := opcode_of_masked (o := 0x30#8) (dMask := 0xFFFFFFF0#32) hm
    have hz := (and_upper_eq_zero (m := 28) (n := 4) (dataField w)).mp hd
    rw [← mkWord_of_opcode ho]
    exact ⟨_, And.symm ⟨(decode_irq_mkWord_event _).trans (if_pos hz), rfl⟩⟩

/-- Settles O3: a decoded word is the encoding of its instruction, which matches its row; the other direction is
`exists_decode_of_matches`. -/
theorem commandsAreExactlyTheTableRows : Obligations.CommandsAreExactlyTheTableRows := by
  refine fun p w r hr => ⟨?_, exists_decode_of_matches hr⟩
  rintro ⟨i, rfl, hd⟩
  obtain ⟨hp, rfl⟩ := encode_of_decode hd
  exact OpcodeRow.matches_iff.mpr ⟨(Instr.row_port i).trans hp, fitsRow i⟩

/-- Settles O4: twelve closed words, evaluated. -/
theorem encodingExamplesDecode : Obligations.EncodingExamplesDecode := by
  unfold Obligations.EncodingExamplesDecode
  decide

/-! ### Illegal and ignored words (R76 to R78) -/

/-- Issuing an illegal word only answers `ILLEGAL` (60_exceptions.md R221). -/
theorem issueWord_of_illegal {v w : CmdWord} (h : decode .bg w = .illegal v) (s : State) :
    issueWord w s = .next (s.raise .illegal) := by
  unfold issueWord
  rw [h]

/-- A word of no command's opcode is illegal on BG (R76). -/
theorem decode_bg_of_reserved_opcode {w : CmdWord}
    (h : opcode w ∉ [0x01#8, 0x02#8, 0x03#8, 0x04#8, 0x10#8, 0x11#8, 0x12#8, 0x20#8]) :
    decode .bg w = .illegal w := by
  simp only [List.mem_cons, List.not_mem_nil, or_false, not_or] at h
  obtain ⟨h1, h2, h3, h4, h5, h6, h7, h8⟩ := h
  simp [decode, decodeBg, h1, h2, h3, h4, h5, h6, h7, h8]

/-- Settles O5: a reserved opcode is illegal by `decode_bg_of_reserved_opcode`, a nonzero reserved bit by the decoder's
answer to the opcode; then `issueWord_of_illegal`. -/
theorem illegalWordsOnlyAnswerIllegal : Obligations.IllegalWordsOnlyAnswerIllegal := by
  intro w s h
  have hd : decode .bg w = .illegal w := by
    obtain h | ⟨ho, hz⟩ | ⟨ho, hz⟩ | ⟨ho, hz⟩ | ⟨ho, hz⟩ | ⟨ho, hz⟩ := h
    · exact decode_bg_of_reserved_opcode h
    all_goals rw [← mkWord_of_opcode ho]
    · exact (decode_bg_mkWord_cfgLed _).trans (if_neg hz)
    · exact (decode_bg_mkWord_cfgBtn _).trans (if_neg hz)
    · exact (decode_bg_mkWord_cfgDisp _).trans (if_neg hz)
    · exact (decode_bg_mkWord_cfgChan _).trans (if_neg hz)
    · exact (decode_bg_mkWord_rdcnt _).trans (if_neg hz)
  exact ⟨hd, issueWord_of_illegal hd s⟩

/-- Delivering an ignored word changes nothing. -/
theorem deliverWord_of_ignored {w : CmdWord} (h : decode .irq w = .ignored) (s : State) :
    deliverWord w s = .next s := by
  unfold deliverWord
  rw [h]

/-- Settles O6: the decoder's answers to another opcode and to a nonzero reserved bit; then `deliverWord_of_ignored`. -/
theorem malformedIrqWordsAreIgnored : Obligations.MalformedIrqWordsAreIgnored := by
  intro w s h
  have hd : decode .irq w = .ignored := by
    rw [← mkWord_opcode_dataField w]
    by_cases ho : opcode w = 0x30#8
    · rw [ho]
      exact (decode_irq_mkWord_event _).trans (if_neg (h.resolve_left (not_not_intro ho)))
    · exact decode_irq_mkWord_of_ne _ ho
  exact ⟨hd, deliverWord_of_ignored hd s⟩

end Sys2Proof.Machine

/-! PROOFS. The statements about response words (60_exceptions.md R220) and the assembler (30_encoding.md R81). -/

namespace Sys2Proof.Machine

/-! ### Response words -/

@[simp] theorem Status.ofCode_code (st : Status) : Status.ofCode st.code = some st := by cases st <;> rfl

/-- Codes 5 to 15 name no status. -/
theorem Status.ofCode_reserved {c : BitVec 4} (h : 5 ≤ c.toNat) : Status.ofCode c = none := by
  unfold Status.ofCode
  repeat rw [if_neg (by rintro rfl; exact absurd h (by decide))]

/-- Reading a word is a matter of its status code alone. -/
theorem readResponse_append (c : BitVec 4) (v : Val) :
    readResponse (c ++ v) = (Status.ofCode c).elim (.fault (.reservedStatus c)) fun st => .next ⟨st, v⟩ := by
  unfold readResponse
  rw [extract_high_append, extract_low_append]
  cases Status.ofCode c <;> rfl

/-- Settles O55: `readResponse_append` on a code that names a status, and on one that names none. -/
theorem responseWordsReadBack : Obligations.ResponseWordsReadBack := by
  refine ⟨fun r => ?_, fun st v h => ?_⟩
  · rw [Response.word, readResponse_append, Status.ofCode_code]
    rfl
  · rw [readResponse_append, Status.ofCode_reserved h]
    rfl

/-! ### Operands of the assembler -/

/-- A number in range is the value of exactly one field of that width. -/
theorem toNat_eq_iff {w n : Nat} (h : n < 2 ^ w) (b : BitVec w) : b.toNat = n ↔ b = BitVec.ofNat w n := by
  constructor
  · rintro rfl
    simp
  · rintro rfl
    exact Nat.mod_eq_of_lt h

/-- A written number that fits its field names that field's value; one that does not fit names none. -/
theorem toNat_eq_iff_fits {w : Nat} (n : Nat) (b : BitVec w) : b.toNat = n ↔ n < 2 ^ w ∧ b = BitVec.ofNat w n := by
  constructor
  · rintro rfl
    exact ⟨b.isLt, (toNat_eq_iff b.isLt b).mp rfl⟩
  · rintro ⟨h, hb⟩
    exact (toNat_eq_iff h b).mpr hb

theorem SrcLine.wellFormed_iff {l : SrcLine} : l.wellFormed = true ↔ l.port < 16 ∧ l.pin < 16 := by
  simp [SrcLine.wellFormed]

/-- A written LineId that fits names the LineId of its fields; one that does not fit names none. -/
theorem SrcLine.names_iff (l : SrcLine) (k : LineId) :
    SrcLine.names l k ↔ l.wellFormed = true ∧ k = SrcLine.toLineId l := by
  obtain ⟨port, pin⟩ := k
  rw [SrcLine.wellFormed_iff, SrcLine.names, toNat_eq_iff_fits, toNat_eq_iff_fits, SrcLine.toLineId, LineId.mk.injEq]
  tauto

/-- A written LineId does not fit exactly when one of its numbers is above 15. -/
theorem SrcLine.not_wellFormed_iff (l : SrcLine) : ¬ l.wellFormed = true ↔ 15 < l.port ∨ 15 < l.pin := by
  rw [SrcLine.wellFormed_iff]
  omega

/-! ### Commands of the assembler (R81, D14) -/

/-- A command is refused exactly where its operands do not fit. -/
theorem toInstr_eq_none_iff (src : SrcInstr) : SrcInstr.toInstr src = none ↔ ¬ src.wellFormed = true := by
  unfold SrcInstr.toInstr
  cases src <;> simp

section
variable (n : Nat) (h t u : SrcLine) (i : Instr)

theorem toInstr_cfgLed_iff :
    SrcInstr.toInstr (.cfgLed h) = some i ↔ h.wellFormed = true ∧ i = .cfgLed (SrcLine.toLineId h) := by
  by_cases hw : h.wellFormed = true <;> simp [hw, SrcInstr.toInstr, SrcInstr.wellFormed, eq_comm (a := i)]

theorem toInstr_cfgBtn_iff :
    SrcInstr.toInstr (.cfgBtn n) = some i ↔ n < 2 ^ 4 ∧ i = .cfgBtn (BitVec.ofNat 4 n) := by
  simp [SrcInstr.toInstr, SrcInstr.wellFormed, eq_comm (a := i)]

theorem toInstr_cfgDisp_iff :
    SrcInstr.toInstr (.cfgDisp h t u) = some i ↔ (h.wellFormed = true ∧ t.wellFormed = true ∧ u.wellFormed = true) ∧
      i = .cfgDisp (SrcLine.toLineId h) (SrcLine.toLineId t) (SrcLine.toLineId u) := by
  simp [SrcInstr.toInstr, SrcInstr.wellFormed, and_assoc, eq_comm (a := i)]

theorem toInstr_cfgChan_iff :
    SrcInstr.toInstr (.cfgChan n h) = some i ↔ (n < 2 ^ 4 ∧ h.wellFormed = true) ∧
      i = .cfgChan (BitVec.ofNat 4 n) (SrcLine.toLineId h) := by
  simp [SrcInstr.toInstr, SrcInstr.wellFormed, eq_comm (a := i)]

theorem toInstr_enc_iff :
    SrcInstr.toInstr (.enc n) = some i ↔ n < 2 ^ 32 ∧ i = .enc (BitVec.ofNat 32 n) := by
  simp [SrcInstr.toInstr, SrcInstr.wellFormed, eq_comm (a := i)]

theorem toInstr_xmit_iff :
    SrcInstr.toInstr (.xmit n) = some i ↔ n < 2 ^ 32 ∧ i = .xmit (BitVec.ofNat 32 n) := by
  simp [SrcInstr.toInstr, SrcInstr.wellFormed, eq_comm (a := i)]

theorem toInstr_render_iff :
    SrcInstr.toInstr (.render n) = some i ↔ n < 2 ^ 32 ∧ i = .render (BitVec.ofNat 32 n) := by
  simp [SrcInstr.toInstr, SrcInstr.wellFormed, eq_comm (a := i)]

theorem toInstr_event_iff :
    SrcInstr.toInstr (.event n) = some i ↔ n < 2 ^ 4 ∧ i = .event (BitVec.ofNat 4 n) := by
  simp [SrcInstr.toInstr, SrcInstr.wellFormed, eq_comm (a := i)]

end

/-- A command of one number, given where its words are accepted: it is accepted exactly as the number's own field. -/
theorem accepted_iff_names {w n : Nat} {mk : BitVec w → Instr} {src : SrcInstr}
    (h : ∀ i, SrcInstr.toInstr src = some i ↔ n < 2 ^ w ∧ i = mk (BitVec.ofNat w n)) (i : Instr) :
    SrcInstr.toInstr src = some i ↔ ∃ b : BitVec w, b.toNat = n ∧ i = mk b := by
  simp only [h, toNat_eq_iff_fits, and_assoc, exists_and_left, exists_eq_left]

/-- Settles O56: each command's `toInstr_…_iff`, with what a written operand names by `toNat_eq_iff_fits` and
`SrcLine.names_iff`; the refusals by `toInstr_eq_none_iff`. -/
theorem assemblerRefusesWhatDoesNotFit : Obligations.AssemblerRefusesWhatDoesNotFit := by
  unfold Obligations.AssemblerRefusesWhatDoesNotFit
  simp only [toInstr_eq_none_iff, SrcInstr.wellFormed, Bool.and_eq_true, decide_eq_true_eq, not_and_or,
    SrcLine.not_wellFormed_iff, Nat.not_lt, or_assoc]
  refine ⟨fun l => ⟨trivial, fun i => ?_⟩, fun n => ⟨Iff.rfl, accepted_iff_names (toInstr_cfgBtn_iff n)⟩,
    fun h t u => ⟨trivial, fun i => ?_⟩, fun n l => ⟨Iff.rfl, fun i => ?_⟩,
    fun n => ⟨Iff.rfl, accepted_iff_names (toInstr_enc_iff n)⟩,
    fun n => ⟨Iff.rfl, accepted_iff_names (toInstr_xmit_iff n)⟩,
    fun n => ⟨Iff.rfl, accepted_iff_names (toInstr_render_iff n)⟩, rfl,
    fun n => ⟨Iff.rfl, accepted_iff_names (toInstr_event_iff n)⟩⟩
  · simp only [toInstr_cfgLed_iff, SrcLine.names_iff, and_assoc, exists_and_left, exists_eq_left]
  · simp only [toInstr_cfgDisp_iff, SrcLine.names_iff, and_assoc, exists_and_left, exists_eq_left]
  · simp only [toInstr_cfgChan_iff, SrcLine.names_iff, toNat_eq_iff_fits, and_assoc, exists_and_left, exists_eq_left]

/-- Settles O57: fifteen closed lines, assembled. -/
theorem assemblerExamplesGiveTheirWords : Obligations.AssemblerExamplesGiveTheirWords := by
  unfold Obligations.AssemblerExamplesGiveTheirWords
  refine ⟨?_, ?_, ?_, ?_, ?_, ?_, ?_, ?_, ?_, ?_, ?_, ?_, ?_, ?_, ?_⟩ <;> decide

end Sys2Proof.Machine

/-! PROOFS. The statements about the step: it always answers a state (60_exceptions.md R225), and whose step it is
(20_memory.md R58, 60_exceptions.md R228). -/

namespace Sys2Proof.Machine

/-! ### Every step answers a state -/

/-- Every command's meaning answers a next state. -/
theorem exec_answers (i : Instr) (s : State) : ∃ t, exec i s = .next t := by
  cases i with
  | render v =>
    unfold exec execRender
    dsimp only
    split <;> exact ⟨_, rfl⟩
  | xmit v =>
    unfold exec execXmit
    dsimp only
    split <;> exact ⟨_, rfl⟩
  | event n =>
    unfold exec execEvent
    dsimp only
    split <;> exact ⟨_, rfl⟩
  | _ => exact ⟨_, rfl⟩

/-- Issuing a command's word runs the command (30_encoding.md R75). -/
theorem issueWord_of_instr {w : CmdWord} {i : Instr} (h : decode .bg w = .instr i) (s : State) :
    issueWord w s = exec i s := by
  unfold issueWord
  rw [h]

/-- Delivering a command's word runs the command (R75). -/
theorem deliverWord_of_instr {w : CmdWord} {i : Instr} (h : decode .irq w = .instr i) (s : State) :
    deliverWord w s = exec i s := by
  unfold deliverWord
  rw [h]

theorem issueWord_answers (w : CmdWord) (s : State) : ∃ t, issueWord w s = .next t := by
  cases h : decode .bg w with
  | instr i =>
    rw [issueWord_of_instr h]
    exact exec_answers i s
  | illegal v => exact ⟨_, issueWord_of_illegal h s⟩
  | ignored => exact absurd h (decodeBg_ne_ignored w)

theorem deliverWord_answers (w : CmdWord) (s : State) : ∃ t, deliverWord w s = .next t := by
  obtain h | ⟨n, h⟩ := decodeIrq_cases w
  · exact ⟨s, deliverWord_of_ignored h s⟩
  · rw [deliverWord_of_instr h]
    exact exec_answers _ s

/-- The step of an agent, whichever it is, answers a state. -/
theorem agentStep_answers (a : Agent) (s : State) : ∃ t, agentStep a s = .next t := by
  cases a with
  | bg =>
    unfold agentStep bgStep
    dsimp only
    split
    · exact ⟨_, rfl⟩
    · split
      · exact ⟨_, rfl⟩
      · exact issueWord_answers _ _
  | irq =>
    unfold agentStep irqStep
    dsimp only
    split
    · exact ⟨_, rfl⟩
    · exact deliverWord_answers _ _

/-- Settles O10: a step is nothing or the step of an agent, and `agentStep_answers`. -/
theorem everyStepAnswersAState : Obligations.EveryStepAnswersAState := by
  intro s
  unfold step machineStep
  split
  · exact ⟨s, rfl⟩
  · exact agentStep_answers _ _

/-! ### Whose step it is -/

section
variable {s : State}

/-- Where only BG has a step, the step is BG's. -/
theorem step_of_bg_only (hb : s.bgReady = true) (hi : s.irqReady = false) : step s = bgStep s := by
  simp [step, machineStep, nextAgent, hb, hi, agentStep]

/-- Where only IRQ has a step, the step is IRQ's. -/
theorem step_of_irq_only (hb : s.bgReady = false) (hi : s.irqReady = true) : step s = irqStep s := by
  simp [step, machineStep, nextAgent, hb, hi, agentStep]

/-- Where both agents have a step, it is that of the one whose turn it is (60_exceptions.md R228). -/
theorem step_of_both (hb : s.bgReady = true) (hi : s.irqReady = true) :
    step s = agentStep s.takeTurn.1 s.takeTurn.2 := by
  simp [step, machineStep, nextAgent, hb, hi]

/-- Where neither agent has a step, nothing changes (log entry 9). -/
theorem step_of_neither (hb : s.bgReady = false) (hi : s.irqReady = false) : step s = .next s := by
  simp [step, machineStep, nextAgent, hb, hi]

theorem State.takeTurn_of_cons {a : Agent} {ts : List Agent} (h : s.turns = a :: ts) :
    s.takeTurn = (a, { s with turns := ts }) := by
  unfold State.takeTurn
  rw [h]

theorem State.takeTurn_of_nil (h : s.turns = []) :
    s.takeTurn = (Config.freeTurn s.freeIx, { s with freeIx := s.freeIx + 1 }) := by
  unfold State.takeTurn
  rw [h]

theorem State.irqReady_eq_false_iff : s.irqReady = false ↔ s.irqQueue = [] := by simp [State.irqReady]

theorem State.irqReady_eq_true_iff : s.irqReady = true ↔ s.irqQueue ≠ [] := by simp [State.irqReady]

theorem State.bgReady_of_busy {j : Job} (h : s.seq = .busy j) : s.bgReady = true := by simp [State.bgReady, h]

theorem State.bgReady_of_word {w : CmdWord} {rest : List CmdWord} (hs : s.seq = .idle) (hp : s.pending = false)
    (hq : s.bgQueue = w :: rest) : s.bgReady = true := by
  simp [State.bgReady, hs, hp, hq]

/-- BG's step while `SEQ` is `Busy` is the sequencer's (10_state.md R37). -/
theorem bgStep_of_busy {j : Job} (h : s.seq = .busy j) : bgStep s = .next (seqStep j s) := by
  unfold bgStep
  rw [h]

/-- BG's step while `SEQ` is `Idle` issues its next word. -/
theorem bgStep_of_word {w : CmdWord} {rest : List CmdWord} (hs : s.seq = .idle) (hq : s.bgQueue = w :: rest) :
    bgStep s = issueWord w { s with bgQueue := rest } := by
  unfold bgStep
  simp only [hs, hq]

end

/-- Settles O7: the step is that of the agent whose turn it is, which takes the word off its queue and runs it. -/
theorem stepRunsTheDecodedInstruction : Obligations.StepRunsTheDecodedInstruction := by
  refine ⟨fun s w rest i hs hp hq hd => ?_, fun s w rest i hq hd => ?_⟩
  · have hb := State.bgReady_of_word hs hp hq
    refine ⟨fun hi => ?_, fun ts hi ht => ?_, fun v irqRest hi ht => ?_⟩
    · rw [step_of_bg_only hb (State.irqReady_eq_false_iff.mpr hi), bgStep_of_word hs hq, issueWord_of_instr hd]
    · rw [step_of_both hb (State.irqReady_eq_true_iff.mpr hi), State.takeTurn_of_cons ht]
      exact (bgStep_of_word (s := { s with turns := ts }) hs hq).trans (issueWord_of_instr hd _)
    · rw [step_of_both hb (State.irqReady_eq_true_iff.mpr (by simp [hi])), State.takeTurn_of_nil ht]
      cases Config.freeTurn s.freeIx with
      | bg => exact (bgStep_of_word (s := { s with freeIx := s.freeIx + 1 }) hs hq).trans (issueWord_of_instr hd _)
      | irq => exact irqStep_cons (s := { s with freeIx := s.freeIx + 1 }) hi
  · have hi : s.irqReady = true := State.irqReady_eq_true_iff.mpr (by simp [hq])
    refine ⟨fun hb => ?_, fun ts hb ht => ?_, fun hb ht => ?_⟩
    · rw [step_of_irq_only hb hi, irqStep_cons hq, deliverWord_of_instr hd]
    · rw [step_of_both hb hi, State.takeTurn_of_cons ht]
      exact (irqStep_cons (s := { s with turns := ts }) hq).trans (deliverWord_of_instr hd _)
    · rw [step_of_both hb hi, State.takeTurn_of_nil ht]
      cases Config.freeTurn s.freeIx with
      | bg => rfl
      | irq => exact (irqStep_cons (s := { s with freeIx := s.freeIx + 1 }) hq).trans (deliverWord_of_instr hd _)

/-- Settles O8: with no event waiting it is `step_busy`; else it is BG's turn, and `bgStep_of_busy`. -/
theorem busyStepIsTheSequencerStep : Obligations.BusyStepIsTheSequencerStep := by
  refine fun s j hs => ⟨step_busy hs, fun ts hi ht => ?_⟩
  rw [step_of_both (State.bgReady_of_busy hs) (State.irqReady_eq_true_iff.mpr hi), State.takeTurn_of_cons ht]
  exact bgStep_of_busy (s := { s with turns := ts }) hs

/-- Settles O9: in a complete state neither agent has a step. -/
theorem completeStateStandsStill : Obligations.CompleteStateStandsStill := by
  rintro s ⟨hs, hp, hb, hi⟩
  exact step_of_neither (by simp [State.bgReady, hs, hb]) (State.irqReady_eq_false_iff.mpr hi)

end Sys2Proof.Machine

/-! PROOFS. What every step keeps: the invariant (10_state.md sections 2 and 4), the ROM and the parameters (R38), the
bindings (43_configuration.md R194), the trace and the count of responses (60_exceptions.md R220); and the frames of the
commands. -/

namespace Sys2Proof.Machine

/-! ### The invariant, taken apart -/

/-- The part of the invariant about `SEQ`: idle with no response pending, or a job in order with its response
pending. -/
def State.SeqInOrder (s : State) : Prop :=
  (s.seq = .idle ∧ s.pending = false) ∨ ∃ j, s.seq = .busy j ∧ s.pending = true ∧ JobOk s j

theorem State.inv_iff (s : State) : s.Inv ↔ s.counter ≤ Config.countMax ∧ LegalArguments s ∧ s.SeqInOrder := by
  unfold State.Inv State.SeqInOrder
  cases s.seq <;> simp

/-- Nothing in it depends on the counter, the trace, the queues or the free choices. -/
theorem State.SeqInOrder.congr {s t : State} (h : s.SeqInOrder) (hq : t.seq = s.seq) (hp : t.pending = s.pending)
    (hc : t.chanCfg = s.chanCfg) (hd : t.dispCfg = s.dispCfg) (hps : t.params = s.params) : t.SeqInOrder := by
  obtain ⟨hi, hn⟩ | ⟨j, hj, hb, ho⟩ := h
  · exact .inl ⟨hq.trans hi, hp.trans hn⟩
  · exact .inr ⟨j, hq.trans hj, hp.trans hb, ho.congr hc hd hps⟩

section
variable {s : State}

theorem State.Inv.legal (h : s.Inv) : LegalArguments s := by
  obtain ⟨-, hl, -⟩ := h
  exact hl

theorem State.Inv.seqInOrder (h : s.Inv) : s.SeqInOrder := by
  obtain ⟨-, -, ho⟩ := (State.inv_iff s).mp h
  exact ho

theorem State.Inv.pending_of_idle (h : s.Inv) (hs : s.seq = .idle) : s.pending = false := by
  obtain ⟨-, hp⟩ | ⟨j, hj, -⟩ := h.seqInOrder
  · exact hp
  · simp [hs] at hj

/-- A busy machine has a response pending, and its job is in order. -/
theorem State.Inv.of_busy {j : Job} (h : s.Inv) (hs : s.seq = .busy j) : s.pending = true ∧ JobOk s j := by
  obtain ⟨hi, -⟩ | ⟨j', hj, hp, ho⟩ := h.seqInOrder
  · simp [hs] at hi
  · obtain rfl : j = j' := Seq.busy.inj (hs.symm.trans hj)
    exact ⟨hp, ho⟩

theorem State.Inv.pending_of_busy {j : Job} (h : s.Inv) (hs : s.seq = .busy j) : s.pending = true := by
  obtain ⟨hp, -⟩ := h.of_busy hs
  exact hp

theorem State.Inv.jobOk {j : Job} (h : s.Inv) (hs : s.seq = .busy j) : JobOk s j := by
  obtain ⟨-, ho⟩ := h.of_busy hs
  exact ho

end

/-- Settles O11: the fields and the levels by definition, the ten default bytes evaluated. -/
theorem resetStateIsAsTheTableSays : Obligations.ResetStateIsAsTheTableSays :=
  ⟨rfl, rfl, rfl, rfl, rfl, rfl, rfl, rfl, rfl, rfl, rfl, fun _ => rfl, by decide⟩

/-- A start state of a run with legal arguments meets the invariant. -/
theorem ResetState.inv {s : State} (h : ResetState s) (hl : LegalArguments s) : s.Inv := by
  obtain ⟨hc, -, -, -, -, hs, -, hp, -⟩ := h
  exact (State.inv_iff s).mpr ⟨by omega, hl, .inl ⟨hs, hp⟩⟩

/-- The state after reset is a start state. -/
theorem resetState_reset : ResetState State.reset := ⟨rfl, rfl, rfl, rfl, rfl, rfl, rfl, rfl, rfl⟩

/-- Settles O12: `ResetState.inv`, for the state after reset too. -/
theorem resetMeetsTheInvariant : Obligations.ResetMeetsTheInvariant :=
  ⟨resetState_reset.inv (by decide), resetState_reset, fun _ h hl => h.inv hl⟩

/-! ### Jobs in order -/

/-- The job of a `RENDER` is in order where both bindings are the ones it was made from. -/
theorem renderJob_jobOk {s : State} {d : PerDigit LineId} {c : TransmitChannel} (v : Val) (hd : s.dispCfg = some d)
    (hc : s.chanCfg = some c) : JobOk s (renderJob d c v) :=
  ⟨hc, by simp [renderJob], ⟨d, hd, rfl⟩, _, rfl⟩

/-- The job of an `XMIT` is in order where the channel is the one it was made from. -/
theorem xmitJob_jobOk {s : State} {c : TransmitChannel} (v : Val) (hc : s.chanCfg = some c) :
    JobOk s (xmitJob c v) :=
  ⟨hc, by simp [xmitJob], rfl, .inl rfl, rfl, _, rfl⟩

section
variable {s : State} {j : Job}

/-- A job in order that has failed stands at one of its closing actions. -/
theorem JobOk.phase_of_failed (h : JobOk s j) (hf : j.failed = true) : j.phase = 3 ∨ j.phase = 5 := by
  obtain ⟨-, hfail, -⟩ := h
  exact (hfail hf).2

/-- A job fails only in a fallible run. -/
theorem JobOk.fallible_of_failed (h : JobOk s j) (hf : j.failed = true) : s.params.transmitFallible = true := by
  obtain ⟨-, hfail, -⟩ := h
  exact (hfail hf).1

/-- The job of an `XMIT` is inside its frame. -/
theorem JobOk.phase_of_xmit (h : JobOk s j) (hk : j.kind = .xmit) : j.phase = 1 ∨ j.phase = 2 ∨ j.phase = 3 := by
  obtain ⟨-, -, hkind⟩ := h
  rw [hk] at hkind
  obtain ⟨-, hp, -⟩ := hkind
  exact hp

/-- A job in order stays so at another phase and with another mark of failure, where those fit its kind and the run. -/
theorem JobOk.moveTo (h : JobOk s j) {p : Fin 6} {f : Bool}
    (hf : f = true → s.params.transmitFallible = true ∧ (p = 3 ∨ p = 5))
    (hx : j.kind = .xmit → p = 1 ∨ p = 2 ∨ p = 3) : JobOk s { j with phase := p, failed := f } := by
  obtain ⟨hc, -, hk⟩ := h
  refine ⟨hc, hf, ?_⟩
  dsimp only
  split
  · next hr => simpa only [hr] using hk
  · next hr =>
    simp only [hr] at hk
    obtain ⟨hs, -, hk⟩ := hk
    exact ⟨hs, hx hr, hk⟩

/-- The job of a `RENDER` that has not failed stays in order at any slot. -/
theorem JobOk.nextSlot (h : JobOk s j) (hk : j.kind = .render) (p : Fin 3) (q : Fin 6) :
    JobOk s { j with slot := p, phase := q, failed := false } := by
  obtain ⟨hc, -, hkind⟩ := h
  refine ⟨hc, by simp, ?_⟩
  simpa only [hk] using hkind

end

/-- Where a sequencer step leaves a machine whose job is in order: the job ended and answered, or goes on in order. -/
theorem seqAdvance_jobOk {s t : State} {j : Job} {f : Bool} (h : JobOk s j)
    (hf : f = j.failed ∨ f = true ∧ j.phase = 2 ∧ s.params.transmitFallible = true) :
    seqAdvance { j with failed := f } t = t.finishJob { j with failed := f } ∨
      ∃ j', JobOk s j' ∧ seqAdvance { j with failed := f } t = t.continueJob j' := by
  have hfallible : f = true → s.params.transmitFallible = true := by
    obtain rfl | ⟨-, -, hp⟩ := hf
    · exact h.fallible_of_failed
    · exact fun _ => hp
  obtain ⟨-, -, ha⟩ | ⟨hk, -, -, ha⟩ | ⟨-, -, ha⟩ | ⟨h5, hff, -, ha⟩ | ⟨h5, h3, ha⟩ :=
    seqAdvance_cases { j with failed := f } t
  · exact .inl ha
  · exact .inr ⟨_, h.moveTo (fun hf => ⟨hfallible hf, .inr rfl⟩) (by simp [show j.kind = .render from hk]), ha⟩
  · exact .inl ha
  · obtain rfl : f = false := hff
    have hk : j.kind = .render := by
      cases hk : j.kind with
      | render => rfl
      | xmit => exact absurd (h.phase_of_xmit hk) (by simp [show j.phase = 5 from h5])
    exact .inr ⟨_, h.nextSlot hk _ _, ha⟩
  · refine .inr ⟨_, h.moveTo (fun hft => ⟨hfallible hft, ?_⟩) (fun hk => ?_), ha⟩
    · obtain hj | ⟨-, h2, -⟩ := hf
      · obtain h3' | h5' := h.phase_of_failed (hj.symm.trans hft)
        · exact absurd (h3 h3').2 (by simp [hft])
        · exact absurd h5' h5
      · exact .inl (by simp [h2])
    · obtain h1 | h2 | h3' := h.phase_of_xmit hk
      · exact .inr (.inl (by simp [h1]))
      · exact .inr (.inr (by simp [h2]))
      · exact absurd (h3 h3').1 (by simp [hk])

/-- A sequencer step of a job in order ends the job, with an answer, or goes on with a job in order. -/
theorem seqStep_jobOk {s : State} {j : Job} (h : JobOk s j) :
    ((seqStep j s).seq = .idle ∧ (seqStep j s).pending = false) ∨
      ∃ j', (seqStep j s).seq = .busy j' ∧ (seqStep j s).pending = s.pending ∧ JobOk (seqStep j s) j' := by
  obtain ⟨f, ds, n, hq, hf⟩ := seqStep_spec j s
  rw [hq]
  obtain ha | ⟨j', hj', ha⟩ := seqAdvance_jobOk h hf <;> rw [ha]
  · exact .inl ⟨rfl, rfl⟩
  · exact .inr ⟨j', rfl, rfl, hj'.congr rfl rfl rfl⟩

/-! ### What a sequencer step leaves as it is, field by field -/

section
variable (j : Job) (s : State)

@[simp] theorem seqStep_counter : (seqStep j s).counter = s.counter := by
  obtain ⟨h, -⟩ := seqStep_frame j s
  exact h

@[simp] theorem seqStep_ledCfg : (seqStep j s).ledCfg = s.ledCfg := by
  obtain ⟨-, h, -⟩ := seqStep_frame j s
  exact h

@[simp] theorem seqStep_btnCfg : (seqStep j s).btnCfg = s.btnCfg := by
  obtain ⟨-, -, h, -⟩ := seqStep_frame j s
  exact h

@[simp] theorem seqStep_dispCfg : (seqStep j s).dispCfg = s.dispCfg := by
  obtain ⟨-, -, -, h, -⟩ := seqStep_frame j s
  exact h

@[simp] theorem seqStep_chanCfg : (seqStep j s).chanCfg = s.chanCfg := by
  obtain ⟨-, -, -, -, h, -⟩ := seqStep_frame j s
  exact h

@[simp] theorem seqStep_trace : (seqStep j s).trace = s.trace ++ [seqAction s.params s.segRom j] := by
  obtain ⟨-, -, -, -, -, h, -⟩ := seqStep_frame j s
  exact h

@[simp] theorem seqStep_segRom : (seqStep j s).segRom = s.segRom := by
  obtain ⟨-, -, -, -, -, -, h, -⟩ := seqStep_frame j s
  exact h

@[simp] theorem seqStep_params : (seqStep j s).params = s.params := by
  obtain ⟨-, -, -, -, -, -, -, h, -⟩ := seqStep_frame j s
  exact h

@[simp] theorem seqStep_irqQueue : (seqStep j s).irqQueue = s.irqQueue := by
  obtain ⟨-, -, -, -, -, -, -, -, -, h, -⟩ := seqStep_frame j s
  exact h

@[simp] theorem seqStep_turns : (seqStep j s).turns = s.turns := by
  obtain ⟨-, -, -, -, -, -, -, -, -, -, h, -⟩ := seqStep_frame j s
  exact h

/-- It answers the pending response and ends the job, or goes on with nothing answered. -/
theorem seqStep_seq_cases :
    ((seqStep j s).seq = .idle ∧ (seqStep j s).pending = false ∧ ∃ r, (seqStep j s).responses = s.responses ++ [r]) ∨
      ∃ j', (seqStep j s).seq = .busy j' ∧ (seqStep j s).pending = s.pending ∧
        (seqStep j s).responses = s.responses := by
  obtain ⟨-, -, -, -, -, -, -, -, -, -, -, h | ⟨j', -, h⟩⟩ := seqStep_frame j s
  · exact .inl h
  · exact .inr ⟨j', h⟩

end

/-- Settles O53: a sequencer step's field by field. -/
theorem frameOfSequencerStep : Obligations.FrameOfSequencerStep := fun j s =>
  ⟨seqStep_counter j s, seqStep_ledCfg j s, seqStep_btnCfg j s, seqStep_dispCfg j s, seqStep_chanCfg j s,
    fun _ => by rw [seqStep_segRom], seqStep_params j s, seqStep_bgQueue j s, seqStep_irqQueue j s, seqStep_turns j s⟩

/-! ### What an issue step leaves behind -/

@[simp] theorem State.bindOnce_pending {α : Type} (s : State) (cur : Option α) (bound : State) :
    (s.bindOnce cur bound).pending = false := by
  obtain ⟨-, h⟩ | ⟨-, -, h⟩ := s.bindOnce_cases cur bound <;> rw [h]
  · rfl
  · rfl

/-- A BG command answers at once and leaves `SEQ` as it was, or starts a job in order and answers later. -/
theorem exec_answers_or_starts {i : Instr} {s t : State} (hi : i.port = .bg) (h : exec i s = .next t) :
    (t.seq = s.seq ∧ t.pending = false ∧ ∃ r, t.responses = s.responses ++ [r] ∧ r.status ≠ .transmitFailed) ∨
      ∃ j, JobOk s j ∧ t = s.startJob j := by
  obtain ⟨-, -, -, -, -, -, -, -, -, -, -, -, -, ha | ⟨j, -, hp, -⟩⟩ := execBg_frame hi h
  · exact .inl ha
  cases i with
  | render v =>
    obtain ⟨d, c, hd, hc, rfl⟩ | ⟨-, rfl⟩ := execRender_cases h
    · exact .inr ⟨_, renderJob_jobOk v hd hc, rfl⟩
    · simp at hp
  | xmit v =>
    obtain ⟨c, hc, rfl⟩ | ⟨-, rfl⟩ := execXmit_cases h
    · exact .inr ⟨_, xmitJob_jobOk v hc, rfl⟩
    · simp at hp
  | event n => simp [Instr.port] at hi
  | _ =>
    obtain rfl := Host.Outcome.next.inj h
    simp at hp

/-- An issued word answers at once and leaves `SEQ` as it was, or starts a job in order and answers later. -/
theorem issueWord_answers_or_starts {w : CmdWord} {s t : State} (h : issueWord w s = .next t) :
    (t.seq = s.seq ∧ t.pending = false ∧ ∃ r, t.responses = s.responses ++ [r] ∧ r.status ≠ .transmitFailed) ∨
      ∃ j, JobOk s j ∧ t = s.startJob j := by
  obtain ⟨i, -, hi, he⟩ | ⟨-, -, rfl⟩ := issueWord_cases h
  · exact exec_answers_or_starts hi he
  · exact .inl ⟨rfl, rfl, _, rfl, by simp⟩

/-! ### What every step keeps -/

/-- No step writes the ROM or the parameters, and none changes a binding that is set. -/
theorem step_keeps {s t : State} (h : step s = .next t) :
    t.segRom = s.segRom ∧ t.params = s.params ∧
      (∀ x, s.ledCfg = some x → t.ledCfg = some x) ∧ (∀ x, s.btnCfg = some x → t.btnCfg = some x) ∧
      (∀ x, s.dispCfg = some x → t.dispCfg = some x) ∧ (∀ x, s.chanCfg = some x → t.chanCfg = some x) := by
  obtain ⟨-, -, rfl⟩ | ⟨ts, n, ⟨j, -, rfl⟩ | ⟨w, rest, -, -, -, hw⟩ | ⟨w, rest, -, hw⟩⟩ := step_cases h
  case inl => exact ⟨rfl, rfl, fun _ => id, fun _ => id, fun _ => id, fun _ => id⟩
  case inr.inl =>
    rw [seqStep_segRom, seqStep_params, seqStep_ledCfg, seqStep_btnCfg, seqStep_dispCfg, seqStep_chanCfg]
    exact ⟨rfl, rfl, fun _ => id, fun _ => id, fun _ => id, fun _ => id⟩
  case inr.inr.inl =>
    obtain ⟨-, -, hr, hp, -, -, -, -, -, hl, hb, hd, hc, -⟩ := issueWord_frame hw
    exact ⟨hr, hp, hl, hb, hd, hc⟩
  case inr.inr.inr =>
    obtain ⟨ht, -⟩ := deliverWord_frame hw
    rw [ht]
    exact ⟨rfl, rfl, fun _ => id, fun _ => id, fun _ => id, fun _ => id⟩

/-- Settles O16: `step_keeps`. -/
theorem romAndParametersNeverChange : Obligations.RomAndParametersNeverChange := by
  intro s t h
  obtain ⟨hr, hp, -⟩ := step_keeps h
  exact ⟨fun i => by rw [hr], hp⟩

/-- Settles O17: `step_keeps`. -/
theorem bindingsAreWriteOnce : Obligations.BindingsAreWriteOnce := by
  intro s t h
  obtain ⟨-, -, hcfg⟩ := step_keeps h
  exact hcfg

/-- A step keeps the counter in range (10_state.md R22). -/
theorem step_counter_le {s t : State} (hs : s.counter ≤ Config.countMax) (h : step s = .next t) :
    t.counter ≤ Config.countMax := by
  obtain ⟨-, hc | ⟨-, -, -, -, -, hc⟩⟩ := step_counter h <;> rw [hc]
  · exact hs
  · exact nextCount_le s.counter

/-- Settles O14: `step_counter_le`, and `exec_rdcnt` answers the counter itself. -/
theorem counterIsNeverSeenOutOfRange : Obligations.CounterIsNeverSeenOutOfRange := by
  refine ⟨fun s t hs h => step_counter_le hs h, fun s hs => ?_⟩
  have hv : (counterVal s.counter).toNat = s.counter := counterVal_toNat (by omega)
  exact ⟨_, _, exec_rdcnt s, State.respond_responses _ _ _, rfl, hv, hv.trans_le hs⟩

/-- A step from a state that meets the invariant leaves `SEQ` in order. -/
theorem step_seqInOrder {s t : State} (hs : s.Inv) (h : step s = .next t) : t.SeqInOrder := by
  obtain ⟨-, -, rfl⟩ | ⟨ts, n, ⟨j, hj, rfl⟩ | ⟨w, rest, hi, -, -, hw⟩ | ⟨w, rest, -, hw⟩⟩ := step_cases h
  case inl => exact hs.seqInOrder
  case inr.inl =>
    obtain ht | ⟨j', hq, hp, hj'⟩ := seqStep_jobOk (s := { s with turns := ts, freeIx := n })
      ((hs.jobOk hj).congr rfl rfl rfl)
    · exact .inl ht
    · exact .inr ⟨j', hq, hp.trans (hs.pending_of_busy hj), hj'⟩
  case inr.inr.inl =>
    obtain ⟨hq, hp, -⟩ | ⟨j, hj, rfl⟩ := issueWord_answers_or_starts hw
    · exact .inl ⟨hq.trans hi, hp⟩
    · exact .inr ⟨j, rfl, rfl, hj.congr rfl rfl rfl⟩
  case inr.inr.inr =>
    obtain ⟨ht, -⟩ := deliverWord_frame hw
    rw [ht]
    exact hs.seqInOrder.congr rfl rfl rfl rfl rfl

/-- Every step keeps the invariant. -/
theorem step_inv {s t : State} (hs : s.Inv) (h : step s = .next t) : t.Inv := by
  obtain ⟨hr, hp, -⟩ := step_keeps h
  have hl : LegalArguments t := by
    unfold LegalArguments
    rw [hr, hp]
    exact hs.legal
  exact (State.inv_iff t).mpr ⟨step_counter_le hs.counter_le h, hl, step_seqInOrder hs h⟩

/-- Settles O13: `step_counter_le` for the counter, `step_keeps` for the arguments of the run, `step_seqInOrder` for the
job and its response. -/
theorem stepKeepsTheInvariant : Obligations.StepKeepsTheInvariant := fun _ _ => step_inv

/-- What a step appends to the trace: nothing, a sequencer step's action, or the toggle of a delivered event. -/
theorem step_trace {s t : State} (h : step s = .next t) :
    t.trace = s.trace ∨
    (∃ j, s.seq = .busy j ∧ t.irqQueue = s.irqQueue ∧ t.trace = s.trace ++ [seqAction s.params s.segRom j]) ∨
    (∃ l w, s.ledCfg = some l ∧ s.irqQueue = w :: t.irqQueue ∧ t.trace = s.trace ++ [.toggle l]) := by
  obtain ⟨-, -, rfl⟩ | ⟨ts, n, ⟨j, hj, rfl⟩ | ⟨w, rest, -, -, -, hw⟩ | ⟨w, rest, hq, hw⟩⟩ := step_cases h
  case inl => exact .inl rfl
  case inr.inl => exact .inr (.inl ⟨j, hj, seqStep_irqQueue j _, seqStep_trace j _⟩)
  case inr.inr.inl =>
    obtain ⟨-, ht, -⟩ := issueWord_frame hw
    exact .inl ht
  case inr.inr.inr =>
    obtain ⟨ht, ⟨-, htr, -⟩ | ⟨-, -, -, -, ⟨-, htr⟩ | ⟨l, hl, htr⟩⟩⟩ := deliverWord_frame hw
    · exact .inl htr
    · exact .inl htr
    · exact .inr (.inr ⟨l, w, hl, by rw [ht, hq], htr⟩)

/-- Settles O18: `step_trace`. -/
theorem eachStepEmitsAtMostOneAction : Obligations.EachStepEmitsAtMostOneAction := fun _ _ => step_trace

/-- The words to issue, the responses returned and the response pending keep their number: an issue step takes a word
and answers or leaves its response pending, the end of a job answers the response that was pending. -/
theorem step_keeps_responses_due {s t : State} (hs : ∀ j, s.seq = .busy j → s.pending = true) (h : step s = .next t) :
    t.bgQueue.length + t.responses.length + t.pending.toNat =
      s.bgQueue.length + s.responses.length + s.pending.toNat := by
  obtain ⟨-, -, rfl⟩ | ⟨ts, n, ⟨j, hj, rfl⟩ | ⟨w, rest, -, hp, hq, hw⟩ | ⟨w, rest, -, hw⟩⟩ := step_cases h
  case inl => rfl
  case inr.inl =>
    have hpend := hs j hj
    obtain ⟨-, hp, r, hr⟩ | ⟨j', -, hp, hr⟩ := seqStep_seq_cases j { s with turns := ts, freeIx := n } <;>
      rw [seqStep_bgQueue, hp, hr]
    simp [hpend, Nat.add_assoc]
  case inr.inr.inl =>
    obtain ⟨-, -, -, -, hb, -⟩ := issueWord_frame hw
    obtain ⟨-, hp', r, hr, -⟩ | ⟨j, -, rfl⟩ := issueWord_answers_or_starts hw
    · rw [hb, hp', hr]
      simp [hp, hq]
      omega
    · simp [hp, hq]
      omega
  case inr.inr.inr =>
    obtain ⟨ht, -⟩ := deliverWord_frame hw
    rw [ht]

/-- Settles O19: `step_keeps_responses_due`. -/
theorem everyCommandGetsOneResponse : Obligations.EveryCommandGetsOneResponse :=
  fun _ _ hs => step_keeps_responses_due fun _ => hs.pending_of_busy

/-- Settles O41: the end of a job answers `OK` by its script, an issue step never answers `TRANSMIT_FAILED`, and a
delivery answers nothing. -/
theorem infallibleRunsNeverAnswerTransmitFailed : Obligations.InfallibleRunsNeverAnswerTransmitFailed := by
  intro s t hs hf h
  obtain ⟨-, -, rfl⟩ | ⟨ts, n, ⟨j, hj, rfl⟩ | ⟨w, rest, -, -, -, hw⟩ | ⟨w, rest, -, hw⟩⟩ := step_cases h
  case inl => exact .inl rfl
  case inr.inl =>
    obtain ⟨_, _, -, -, -, -, hq⟩ | ⟨_, -, hq⟩ := seqStep_script (s := { s with turns := ts, freeIx := n }) hf
      ((hs.jobOk hj).congr rfl rfl rfl) <;> rw [hq]
    · exact .inl rfl
    · exact .inr ⟨_, rfl, by simp⟩
  case inr.inr.inl =>
    obtain ⟨-, -, hr⟩ | ⟨j, -, rfl⟩ := issueWord_answers_or_starts hw
    · exact .inr hr
    · exact .inl rfl
  case inr.inr.inr =>
    obtain ⟨ht, -⟩ := deliverWord_frame hw
    exact .inl (by rw [ht])

/-! ### Frames of the commands -/

/-- Settles O50: each of the four either binds its own register and answers, or only answers
(`State.bindOnce_cases`). -/
theorem frameOfConfigurationCommands : Obligations.FrameOfConfigurationCommands := by
  rintro i s t (⟨l, rfl⟩ | ⟨p, rfl⟩ | ⟨a, b, c, rfl⟩ | ⟨c, l, rfl⟩) h <;> obtain rfl := Host.Outcome.next.inj h
  · obtain ⟨-, hb⟩ | ⟨-, -, hb⟩ := s.bindOnce_cases s.ledCfg { s with ledCfg := some l } <;> simp [hb]
  · obtain ⟨-, hb⟩ | ⟨-, -, hb⟩ := s.bindOnce_cases s.btnCfg { s with btnCfg := some p } <;> simp [hb]
  · obtain ⟨-, hb⟩ | ⟨-, -, hb⟩ := s.bindOnce_cases s.dispCfg { s with dispCfg := some ⟨a, b, c⟩ } <;> simp [hb]
  · obtain ⟨-, hb⟩ | ⟨-, -, hb⟩ := s.bindOnce_cases s.chanCfg { s with chanCfg := some ⟨c, l⟩ } <;> simp [hb]

/-- Settles O51: `ENC` and `RDCNT` only answer; `RENDER` and `XMIT` start a job or only answer. -/
theorem frameOfReadingAndJobCommands : Obligations.FrameOfReadingAndJobCommands := by
  rintro i s t (⟨v, rfl⟩ | rfl | ⟨v, rfl⟩ | ⟨v, rfl⟩) h
  · obtain rfl := Host.Outcome.next.inj h
    simp
  · obtain rfl := exec_rdcnt_eq h
    simp
  · obtain ⟨d, c, -, -, rfl⟩ | ⟨-, rfl⟩ := execRender_cases h <;> simp
  · obtain ⟨c, -, rfl⟩ | ⟨-, rfl⟩ := execXmit_cases h <;> simp

/-- An event changes the counter and the trace at most, as the delivery of its word does. -/
theorem exec_event_frame {p : PinId} {s t : State} (h : exec (.event p) s = .next t) :
    t = { s with counter := t.counter, trace := t.trace } := by
  rw [← deliverWord_encode_event] at h
  obtain ⟨ht, -⟩ := deliverWord_frame h
  exact ht

/-- Settles O52: `exec_event_frame`. -/
theorem frameOfEvent : Obligations.FrameOfEvent := by
  intro p s t h
  rw [exec_event_frame h]
  exact ⟨rfl, rfl, rfl, rfl, rfl, rfl, rfl, fun _ => rfl, rfl, rfl, rfl, rfl, rfl, rfl⟩

end Sys2Proof.Machine

/-! PROOFS. The statements about the encoder (40_segment_encoder.md), the digits of a value (41_digit_multiplexer.md
section 1) and the issue steps of `RENDER` and `XMIT` (R124, R130). -/

namespace Sys2Proof.Machine

/-! ### The encoder -/

/-- The index a value selects is its remainder by 10, and no other digit is (R100). -/
theorem eq_lastDigit {v : Val} {i : Digit} (h : i.val = v.toNat % 10) : i = lastDigit v := Fin.ext h

/-- Settles O26: the decoder's answer to the opcode of `ENC`, and the entry at `lastDigit`. -/
theorem encAnswersTheSegmentPattern : Obligations.EncAnswersTheSegmentPattern := by
  refine ⟨decode_bg_mkWord_enc, fun v i s hi => ?_⟩
  rw [eq_lastDigit hi]
  rfl

/-- Settles O27: the ROM of a table is in canonical form and reads as the table. -/
theorem encoderReadsAnyTable : Obligations.EncoderReadsAnyTable := fun tab v =>
  ⟨Memory.wf_ofTable tab, lastDigit v, rfl, rfl, Memory.read_ofTable tab _⟩

/-- Two values with the same remainder by 10 select the same entry. -/
theorem lastDigit_congr {v w : Val} (h : v.toNat % 10 = w.toNat % 10) : lastDigit v = lastDigit w := eq_lastDigit h

/-- Settles O28: `segEncode_digitVal` on a digit, and `lastDigit_congr` for the period. -/
theorem encoderHasPeriodTen : Obligations.EncoderHasPeriodTen := by
  refine ⟨segEncode_digitVal, fun rom d k h => ?_⟩
  have hd : lastDigit (BitVec.ofNat 32 (d + 10 * k)) = lastDigit (BitVec.ofNat 32 d) := by
    have hlt : d < 2 ^ 32 := Nat.lt_of_le_of_lt (Nat.le_add_right d _) h
    apply lastDigit_congr
    rw [BitVec.toNat_ofNat, BitVec.toNat_ofNat, Nat.mod_eq_of_lt h, Nat.mod_eq_of_lt hlt, Nat.add_mul_mod_self_left]
  rw [segEncode, segEncode, hd]

/-! ### The digits of a value -/

/-- Settles O30: the digits are the quotients and remainders of `decompose_units_val` and its two fellows. -/
theorem digitsMakeUpTheValue : Obligations.DigitsMakeUpTheValue := by
  refine fun v => ⟨fun hv => ?_, ?_⟩
  · simp only [decompose_units_val, decompose_tens_val, decompose_hundreds_val]
    omega
  · have hm : (BitVec.ofNat 32 (v.toNat % 1000)).toNat = v.toNat % 1000 := by
      rw [BitVec.toNat_ofNat]
      omega
    unfold decompose
    rw [hm, PerDigit.mk.injEq, Fin.ext_iff, Fin.ext_iff, Fin.ext_iff]
    simp only [Fin.val_ofNat]
    omega

/-! ### The issue steps of `RENDER` and `XMIT` -/

section
variable {s : State} (v : Val)

/-- With both bindings, `RENDER` starts its job (R124). -/
theorem exec_render_of_bound {d : PerDigit LineId} {c : TransmitChannel} (hd : s.dispCfg = some d)
    (hc : s.chanCfg = some c) : exec (.render v) s = .next (s.startJob (renderJob d c v)) := by
  simp only [exec, execRender, hd, hc]

/-- Without one of the bindings, `RENDER` only answers `NOT_CONFIGURED` (R129). -/
theorem exec_render_of_unbound (h : s.dispCfg = none ∨ s.chanCfg = none) :
    exec (.render v) s = .next (s.raise .notConfigured) := by
  obtain ⟨t, ht⟩ := exec_answers (.render v) s
  obtain ⟨d, c, hd, hc, -⟩ | ⟨-, rfl⟩ := execRender_cases ht
  · simp [hd, hc] at h
  · exact ht

/-- With the channel bound, `XMIT` starts its job (R130). -/
theorem exec_xmit_of_bound {c : TransmitChannel} (hc : s.chanCfg = some c) :
    exec (.xmit v) s = .next (s.startJob (xmitJob c v)) := by
  simp only [exec, execXmit, hc]

/-- Without the channel, `XMIT` only answers `NOT_CONFIGURED`. -/
theorem exec_xmit_of_unbound (h : s.chanCfg = none) : exec (.xmit v) s = .next (s.raise .notConfigured) := by
  simp only [exec, execXmit, h]

end

/-- Settles O32: the decoder's answer to the opcode of `RENDER`, and the command's two cases. -/
theorem renderStartsItsJob : Obligations.RenderStartsItsJob :=
  ⟨decode_bg_mkWord_render, fun v _ _ _ hd hc => exec_render_of_bound v hd hc,
    fun v _ h => exec_render_of_unbound v h⟩

/-- Settles O33: the decoder's answer to the opcode of `XMIT`, and the command's two cases. -/
theorem xmitStartsItsJob : Obligations.XmitStartsItsJob := by
  refine ⟨decode_bg_mkWord_xmit, fun v i s c hi hc => ?_, fun v s h => exec_xmit_of_unbound v h⟩
  rw [eq_lastDigit hi]
  exact exec_xmit_of_bound v hc

end Sys2Proof.Machine

/-! PROOFS. The statements about the jobs of `RENDER` and `XMIT` (41_digit_multiplexer.md): their actions, with events
between them or not (R125, R127, R134), the levels they leave (R128), and how they end (R132, R136). -/

namespace Sys2Proof.Machine

/-! ### A command that no event interrupts -/

/-- The actions of a `RENDER`'s job are the 18 of the value (R127). -/
theorem renderJob_remaining (ps : Params) (rom : Memory) (d : PerDigit LineId) (c : TransmitChannel) (v : Val) :
    Job.remaining ps rom (renderJob d c v) = renderActions ps rom d c (decompose v) := rfl

/-- The actions of an `XMIT`'s job are one frame (R130, R131). -/
theorem xmitJob_remaining (ps : Params) (rom : Memory) (c : TransmitChannel) (v : Val) :
    Job.remaining ps rom (xmitJob c v) = frameActions c (rom.read (lastDigit v)) := rfl

section
variable {s : State} {i : Instr} {rest : List CmdWord} {j : Job}

/-- With no event waiting, an idle machine runs the command whose word is next. -/
theorem step_issue_encode (hi : i.port = .bg) (hs : s.seq = .idle) (hp : s.pending = false)
    (hq : s.bgQueue = encode i :: rest) (he : s.irqQueue = []) : step s = exec i { s with bgQueue := rest } :=
  (step_issue hs hp hq he).trans (issueWord_of_instr (decode_bg_encode hi) _)

variable (hi : i.port = .bg) (hs : s.seq = .idle) (hp : s.pending = false) (he : s.irqQueue = []) (hf : Infallible s)
  (hq : s.bgQueue = encode i :: rest) (hj : JobOk s j)
  (hx : exec i { s with bgQueue := rest } = .next (State.startJob { s with bgQueue := rest } j))
include hi hs hp he hf hq hj hx

/-- A command that starts a job, and no event between: the issue step and all actions of the job, then `OK`. -/
theorem runSteps_issue_script :
    runSteps ((Job.remaining s.params s.segRom j).length + 1) s = .next { s with
      bgQueue := rest, trace := s.trace ++ Job.remaining s.params s.segRom j,
      responses := s.responses ++ [⟨.ok, 0⟩] } := by
  have hrun := runSteps_script (s := State.startJob { s with bgQueue := rest } j) hf rfl he (hj.congr rfl rfl rfl)
  rw [runSteps_succ _ ((step_issue_encode hi hs hp hq he).trans hx)]
  refine hrun.trans ?_
  rw [← hs, ← hp]
  rfl

/-- The same up to the first `k` actions, `k` less than all. -/
theorem runSteps_issue_script_prefix {k : Nat} (hk : k < (Job.remaining s.params s.segRom j).length) :
    ∃ t, runSteps (k + 1) s = .next t ∧ t.trace = s.trace ++ (Job.remaining s.params s.segRom j).take k := by
  obtain ⟨j', -, -, hrun⟩ := runSteps_script_prefix k (s := State.startJob { s with bgQueue := rest } j) hf rfl he
    (hj.congr rfl rfl rfl) hk
  exact ⟨_, (runSteps_succ _ ((step_issue_encode hi hs hp hq he).trans hx)).trans hrun, rfl⟩

end

/-- Settles O34: `RENDER` starts its job, and `runSteps_issue_script`. -/
theorem renderEmitsItsEighteenActions : Obligations.RenderEmitsItsEighteenActions := by
  intro s v rest d c hs hp he hf hq hd hc
  exact runSteps_issue_script (i := .render v) rfl hs hp he hf hq (renderJob_jobOk v hd hc)
    (exec_render_of_bound v hd hc)

/-- Settles O35: `XMIT` starts its job, and `runSteps_issue_script`. -/
theorem xmitEmitsOneFrame : Obligations.XmitEmitsOneFrame := by
  intro s v i rest c hs hp he hf hi hq hc
  rw [eq_lastDigit hi]
  exact runSteps_issue_script (i := .xmit v) rfl hs hp he hf hq (xmitJob_jobOk v hc) (exec_xmit_of_bound v hc)

/-! ### The levels of the lines (R128) -/

/-- Actions none of which changes a line leave its level. -/
theorem levelFrom_of_forall {l : LineId} {v : Option Level} {as : List Action}
    (h : ∀ a ∈ as, levelStep l v a = v) : levelFrom v l as = v := by
  induction as with
  | nil => rfl
  | cons a as ih =>
    rw [levelFrom_cons, h a List.mem_cons_self]
    exact ih fun b hb => h b (List.mem_cons_of_mem _ hb)

section
variable (ps : Params) (c : TransmitChannel) (line : LineId) (b : Byte)

theorem slotActions_length : (slotActions ps c line b).length = 6 := rfl

/-- A slot leaves its own line and the chip-select line deasserted, and no other changed. -/
theorem levelFrom_slotActions (v : Option Level) (l : LineId) :
    levelFrom v l (slotActions ps c line b) = if l = line ∨ l = c.cs then some .deasserted else v := by
  by_cases h1 : line = l <;> by_cases h2 : c.cs = l <;>
    simp [slotActions, frameActions, levelStep, h1, h2, eq_comm (a := l)]

/-- No action of a slot changes a line that is neither its own nor the chip-select line. -/
theorem levelFrom_slotActions_take_of_ne {l : LineId} (hl : l ≠ line) (hc : l ≠ c.cs) (v : Option Level) (k : Nat) :
    levelFrom v l ((slotActions ps c line b).take k) = v := by
  refine levelFrom_of_forall fun a ha => ?_
  replace ha := List.mem_of_mem_take ha
  simp only [slotActions, frameActions, List.cons_append, List.nil_append, List.mem_cons, List.not_mem_nil,
    or_false] at ha
  obtain rfl | rfl | rfl | rfl | rfl | rfl := ha <;> simp [levelStep, hl.symm, hc.symm]

/-- A slot's own line is asserted after its first action and until its last. -/
theorem levelFrom_slotActions_take_self (hc : line ≠ c.cs) (k : Nat) :
    levelFrom (some .deasserted) line ((slotActions ps c line b).take k) =
      some (if 0 < k ∧ k < 6 then .asserted else .deasserted) := by
  match k with
  | 0 => rfl
  | 1 | 2 | 3 | 4 | 5 => simp [slotActions, frameActions, levelStep, hc.symm]
  | k + 6 =>
    rw [List.take_of_length_le (by simp [slotActions_length]), levelFrom_slotActions]
    simp

end

/-- The first `k` of the 18 actions, slot by slot. -/
theorem renderActions_take (ps : Params) (rom : Memory) (d : PerDigit LineId) (c : TransmitChannel)
    (g : PerDigit Digit) (k : Nat) :
    (renderActions ps rom d c g).take k =
      (slotActions ps c d.hundreds (rom.read g.hundreds)).take k ++
        (slotActions ps c d.tens (rom.read g.tens)).take (k - 6) ++
        (slotActions ps c d.units (rom.read g.units)).take (k - 12) := by
  simp [renderActions, List.take_append, slotActions_length, Nat.sub_sub]

/-- Settles O38: each slot deasserts its own line and the chip-select line (`levelFrom_slotActions`). -/
theorem renderLeavesItsLinesDeasserted : Obligations.RenderLeavesItsLinesDeasserted := by
  intro s v rest d c hs hp he hf hq hd hc _
  refine ⟨_, renderEmitsItsEighteenActions s v rest d c hs hp he hf hq hd hc, fun l hl => ?_, fun l hl => ?_⟩
  all_goals
    rw [State.lineLevel_append (s := s) rfl]
    simp only [renderActions, levelFrom_append, levelFrom_slotActions]
    simp only [List.mem_cons, List.not_mem_nil, or_false, not_or] at hl
  · obtain rfl | rfl | rfl | rfl := hl <;> simp
  · obtain ⟨hh, ht, hu, hcs⟩ := hl
    simp [hh, ht, hu, hcs]

/-- A `RENDER` with no event between, after its first `k` actions, `k` up to all 18. -/
theorem runSteps_render_take {s : State} {v : Val} {rest : List CmdWord} {d : PerDigit LineId} {c : TransmitChannel}
    {k : Nat} (hs : s.seq = .idle) (hp : s.pending = false) (he : s.irqQueue = []) (hf : Infallible s)
    (hq : s.bgQueue = encode (.render v) :: rest) (hd : s.dispCfg = some d) (hc : s.chanCfg = some c) (hk : k ≤ 18) :
    ∃ t, runSteps (k + 1) s = .next t ∧
      t.trace = s.trace ++ (renderActions s.params s.segRom d c (decompose v)).take k := by
  obtain rfl | hlt := Nat.eq_or_lt_of_le hk
  · exact ⟨_, renderEmitsItsEighteenActions s v rest d c hs hp he hf hq hd hc, rfl⟩
  · exact runSteps_issue_script_prefix (i := .render v) rfl hs hp he hf hq (renderJob_jobOk v hd hc)
      (exec_render_of_bound v hd hc) hlt

/-- Settles O39: `runSteps_render_take`, and slot by slot what the actions so far do to each select line: its own slot
`levelFrom_slotActions_take_self`, the two others `levelFrom_slotActions_take_of_ne`. -/
theorem oneSelectLineAtATime : Obligations.OneSelectLineAtATime := by
  intro s v rest d c k hs hp he hf hq hd hc hdist hk hdark
  obtain ⟨t, hrun, htr⟩ := runSteps_render_take hs hp he hf hq hd hc hk
  refine ⟨t, by rw [Nat.add_comm]; exact hrun, fun q => ?_⟩
  rw [State.lineLevel_append htr, hdark q, renderActions_take, levelFrom_append, levelFrom_append]
  simp only [List.nodup_cons, List.mem_cons, List.not_mem_nil, or_false, not_or, not_false_eq_true, List.nodup_nil,
    and_true] at hdist
  obtain ⟨⟨hht, hhu, hhc⟩, ⟨htu, htc⟩, huc⟩ := hdist
  match q with
  | 0 =>
    simp only [PerDigit.get]
    rw [levelFrom_slotActions_take_self _ _ _ _ hhc, levelFrom_slotActions_take_of_ne _ _ _ _ hht hhc,
      levelFrom_slotActions_take_of_ne _ _ _ _ hhu hhc]
    simp
  | 1 =>
    simp only [PerDigit.get]
    rw [levelFrom_slotActions_take_of_ne _ _ _ _ (Ne.symm hht) htc, levelFrom_slotActions_take_self _ _ _ _ htc,
      levelFrom_slotActions_take_of_ne _ _ _ _ htu htc]
    exact congrArg some (if_congr (by simp; omega) rfl rfl)
  | 2 =>
    simp only [PerDigit.get]
    rw [levelFrom_slotActions_take_of_ne _ _ _ _ (Ne.symm hhu) huc,
      levelFrom_slotActions_take_of_ne _ _ _ _ (Ne.symm htu) huc, levelFrom_slotActions_take_self _ _ _ _ huc]
    exact congrArg some (if_congr (by simp; omega) rfl rfl)

/-! ### A job with events between its actions -/

/-- Settles O36: `step_busy_cases`, the sequencer's step by `seqStep_script` and the delivery's trace by
`step_trace`. -/
theorem sequencerFollowsItsScript : Obligations.SequencerFollowsItsScript := by
  intro s t j hs hf hj h
  obtain ⟨ts, n, rfl⟩ | ⟨w, hq, hj', -, hr⟩ := step_busy_cases hj h
  · obtain ⟨a, j', hrem, hne, -, -, heq⟩ | ⟨a, hrem, heq⟩ :=
      seqStep_script (s := { s with turns := ts, freeIx := n }) hf ((hs.jobOk hj).congr rfl rfl rfl) <;> rw [heq]
    · exact .inl ⟨a, j', hrem, hne, rfl, rfl, rfl, rfl⟩
    · exact .inr (.inl ⟨a, hrem, rfl, rfl, rfl, rfl⟩)
  · refine .inr (.inr ⟨w, hq, hj', hr, ?_⟩)
    obtain htr | ⟨-, -, hiq, -⟩ | ⟨l, -, hl, -, htr⟩ := step_trace h
    · exact .inl htr
    · exact absurd (hq.symm.trans hiq.symm) (List.cons_ne_self _ _)
    · exact .inr ⟨l, hl, htr⟩

/-- No step of a busy machine binds the LED. -/
theorem step_busy_ledCfg {s t : State} {j : Job} (hj : s.seq = .busy j) (h : step s = .next t) :
    t.ledCfg = s.ledCfg := by
  obtain ⟨-, -, rfl⟩ | ⟨ts, n, ⟨j', -, rfl⟩ | ⟨-, -, hi, -⟩ | ⟨w, rest, -, hw⟩⟩ := step_cases h
  case inl => rfl
  case inr.inl => exact seqStep_ledCfg j' _
  case inr.inr.inl => simp [hj] at hi
  case inr.inr.inr =>
    obtain ⟨ht, -⟩ := deliverWord_frame hw
    rw [ht]

/-- The actions of a slot are no toggles (42_counter_event.md R173). -/
theorem isToggle_of_mem_slotActions {ps : Params} {c : TransmitChannel} {line : LineId} {b : Byte} {a : Action}
    (h : a ∈ slotActions ps c line b) : a.isToggle = false := by
  simp only [slotActions, frameActions, List.cons_append, List.nil_append, List.mem_cons, List.not_mem_nil,
    or_false] at h
  obtain rfl | rfl | rfl | rfl | rfl | rfl := h <;> rfl

/-- The actions of a job are no toggles. -/
theorem isToggle_of_mem_remaining {ps : Params} {rom : Memory} {j : Job} {a : Action}
    (h : a ∈ Job.remaining ps rom j) : a.isToggle = false := by
  replace h := List.mem_of_mem_drop h
  unfold Job.script at h
  split at h
  · obtain h | h := List.mem_append.mp h
    · obtain h | h := List.mem_append.mp h
      · exact isToggle_of_mem_slotActions h
      · exact isToggle_of_mem_slotActions h
    · exact isToggle_of_mem_slotActions h
  · exact isToggle_of_mem_slotActions (List.mem_of_mem_take h)

theorem toggle_not_mem_singleton {a : Action} (ha : a.isToggle = false) (l : LineId) : Action.toggle l ∉ [a] := by
  intro h
  obtain rfl := List.mem_singleton.mp h
  simp [Action.isToggle] at ha

/-- Between `s` and `t` a job, or a command that starts one, has ended and answered `OK`; its own actions were `script`,
and all others were toggles of the LED line of `s`. -/
def ShowsScript (s t : State) (script : List Action) : Prop :=
  t.seq = .idle ∧ t.responses = s.responses ++ [⟨.ok, 0⟩] ∧
    ∃ xs, t.trace = s.trace ++ xs ∧ xs.filter (fun a => !Action.isToggle a) = script ∧
      ∀ l, Action.toggle l ∈ xs → s.ledCfg = some l

/-- A step before, which answers nothing and appends some actions, puts those of them that are no toggles before the
script. -/
theorem ShowsScript.of_step {s s' t : State} {script as : List Action} (h : ShowsScript s' t script)
    (hr : s'.responses = s.responses) (hl : s'.ledCfg = s.ledCfg) (htr : s'.trace = s.trace ++ as)
    (has : ∀ l, Action.toggle l ∈ as → s.ledCfg = some l) :
    ShowsScript s t (as.filter (fun a => !Action.isToggle a) ++ script) := by
  obtain ⟨hs, hresp, xs, hxs, rfl, hxl⟩ := h
  refine ⟨hs, by rw [hresp, hr], as ++ xs, by rw [hxs, htr, List.append_assoc], List.filter_append .., ?_⟩
  intro l hm
  obtain hm | hm := List.mem_append.mp hm
  · exact has l hm
  · exact hl.symm.trans (hxl l hm)

/-- A delivered event before it leaves the script as it is. -/
theorem ShowsScript.of_event {s s' t : State} {script : List Action} (h : ShowsScript s' t script)
    (hr : s'.responses = s.responses) (hl : s'.ledCfg = s.ledCfg)
    (htr : s'.trace = s.trace ∨ ∃ l, s.ledCfg = some l ∧ s'.trace = s.trace ++ [.toggle l]) :
    ShowsScript s t script := by
  obtain htr | ⟨l, hled, htr⟩ := htr
  · exact h.of_step (as := []) hr hl (by simp [htr]) (by simp)
  · exact h.of_step (as := [.toggle l]) hr hl htr (by simp [hled])

/-- Whatever events fall in it, a job in an infallible run ends within its actions and the events waiting, and shows its
script. -/
theorem exists_run_showsScript {s : State} {j : Job} (hs : s.Inv) (hf : Infallible s) (hj : s.seq = .busy j) :
    ∃ n t, n ≤ (Job.remaining s.params s.segRom j).length + s.irqQueue.length ∧ runSteps n s = .next t ∧
      t.bgQueue = s.bgQueue ∧ ShowsScript s t (Job.remaining s.params s.segRom j) := by
  generalize hm : (Job.remaining s.params s.segRom j).length + s.irqQueue.length = m
  induction m generalizing s j with
  | zero =>
    obtain ⟨a, j', hrem, -⟩ | ⟨a, hrem, -⟩ := seqStep_script hf (hs.jobOk hj) <;> simp [hrem] at hm
  | succ m ih =>
    obtain ⟨s1, h1⟩ := everyStepAnswersAState s
    have hbg := step_busy_bgQueue hj h1
    have hled := step_busy_ledCfg hj h1
    obtain ⟨hrom, hps, -⟩ := step_keeps h1
    have hf1 : Infallible s1 := by rw [Infallible, hps]; exact hf
    obtain ⟨a, j', hrem, -, hj', hiq, htr, hr⟩ | ⟨a, hrem, hidle, -, htr, hr⟩ | ⟨w, hiq, hj', hr, htr⟩ :=
      sequencerFollowsItsScript s s1 j hs hf hj h1
    · have ha : a.isToggle = false := isToggle_of_mem_remaining (hrem ▸ List.mem_cons_self)
      rw [hrem, List.length_cons] at hm
      obtain ⟨n, t, hn, hrun, hbt, hshow⟩ := ih (step_inv hs h1) hf1 hj' (by rw [hrom, hps, hiq]; omega)
      refine ⟨n + 1, t, by omega, (runSteps_succ n h1).trans hrun, hbt.trans hbg, ?_⟩
      have hcons := hshow.of_step (as := [a]) hr hled htr
        fun l hl => absurd hl (toggle_not_mem_singleton ha l)
      rw [hrom, hps] at hcons
      simpa [hrem, ha] using hcons
    · have ha : a.isToggle = false := isToggle_of_mem_remaining (hrem ▸ List.mem_cons_self)
      exact ⟨1, s1, by omega, runSteps_one h1, hbg, hidle, hr, [a], htr, by simp [hrem, ha],
        fun l hl => absurd hl (toggle_not_mem_singleton ha l)⟩
    · obtain ⟨n, t, hn, hrun, hbt, hshow⟩ := ih (step_inv hs h1) hf1 hj'
        (by rw [hrom, hps]; rw [hiq, List.length_cons] at hm; omega)
      rw [hrom, hps] at hshow
      exact ⟨n + 1, t, by omega, (runSteps_succ n h1).trans hrun, hbt.trans hbg, hshow.of_event hr hled htr⟩

/-- Whatever events come before it and fall in it, a `RENDER` that is the next word of an idle machine ends within its
19 steps and the events waiting, and shows its 18 actions. -/
theorem exists_run_render {s : State} {v : Val} {rest : List CmdWord} {d : PerDigit LineId} {c : TransmitChannel}
    (hs : s.Inv) (hf : Infallible s) (hi : s.seq = .idle) (hq : s.bgQueue = encode (.render v) :: rest)
    (hd : s.dispCfg = some d) (hc : s.chanCfg = some c) :
    ∃ n t, n ≤ 19 + s.irqQueue.length ∧ runSteps n s = .next t ∧ t.bgQueue = rest ∧
      ShowsScript s t (renderActions s.params s.segRom d c (decompose v)) := by
  generalize hm : s.irqQueue.length = m
  induction m using Nat.strong_induction_on generalizing s with
  | _ m ih =>
  obtain ⟨s1, h1⟩ := everyStepAnswersAState s
  have hinv := step_inv hs h1
  obtain ⟨hb, -⟩ | ⟨ts, k, ⟨j, hj, -⟩ | ⟨w, rest', -, -, hq', hw⟩ | ⟨w, irqRest, hiq, hw⟩⟩ := step_cases h1
  case inl => simp [State.bgReady_of_word hi (hs.pending_of_idle hi) hq] at hb
  case inr.inl => simp [hi] at hj
  case inr.inr.inl =>
    obtain ⟨rfl, rfl⟩ := List.cons.inj (hq.symm.trans hq')
    rw [issueWord_of_instr (decode_bg_encode rfl)] at hw
    obtain rfl := Host.Outcome.next.inj ((exec_render_of_bound v (by exact hd) (by exact hc)).symm.trans hw)
    obtain ⟨n, t, hn, hrun, hbt, hidle, hr, hshow⟩ := exists_run_showsScript hinv hf rfl
    have hn' : n ≤ 18 + s.irqQueue.length := hn
    exact ⟨n + 1, t, by omega, (runSteps_succ n h1).trans hrun, hbt, hidle, hr, hshow⟩
  case inr.inr.inr =>
    obtain ⟨ht, htr⟩ := deliverWord_frame hw
    have hlen : s1.irqQueue.length < m := by rw [ht, ← hm, hiq]; simp
    obtain ⟨n, t, hn, hrun, hbt, hshow⟩ := ih _ hlen hinv (by rw [ht]; exact hf) (by rw [ht]; exact hi)
      (by rw [ht]; exact hq) (by rw [ht]; exact hd) (by rw [ht]; exact hc) rfl
    refine ⟨n + 1, t, by omega, (runSteps_succ n h1).trans hrun, hbt, ?_⟩
    rw [show s1.params = s.params by rw [ht], show s1.segRom = s.segRom by rw [ht]] at hshow
    refine hshow.of_event (by rw [ht]) (by rw [ht]) ?_
    obtain ⟨-, htr, -⟩ | ⟨-, -, -, -, ⟨-, htr⟩ | htr⟩ := htr
    · exact .inl htr
    · exact .inl htr
    · exact .inr htr

/-- Settles O37: `exists_run_render`. -/
theorem interruptedRenderShowsOneValue : Obligations.InterruptedRenderShowsOneValue := by
  intro s v rest d c hs hf hi hq hd hc
  obtain ⟨n, t, hn, hrun, hbt, hidle, hr, xs, hxs⟩ := exists_run_render hs hf hi hq hd hc
  exact ⟨n, t, xs, hn, hrun, hidle, hbt, hr, hxs⟩

/-! ### The transmit that fails (R132) -/

@[simp] theorem State.takeDraw_irqQueue (s : State) : s.takeDraw.2.irqQueue = s.irqQueue := by
  obtain ⟨ds, n, h⟩ := s.takeDraw_spec
  rw [h]

@[simp] theorem State.takeDraw_responses (s : State) : s.takeDraw.2.responses = s.responses := by
  obtain ⟨ds, n, h⟩ := s.takeDraw_spec
  rw [h]

section
variable {s : State} {j : Job}

/-- A job in order that is at its transmit step has not failed. -/
theorem JobOk.not_failed_of_transmit (h : JobOk s j) (hp : j.phase = 2) : j.failed = false := by
  cases hf : j.failed with
  | false => rfl
  | true => exact absurd (h.phase_of_failed hf) (by simp [hp])

/-- The transmit step of a fallible run: the byte, a draw, and the job marked by it goes on to close its frame. -/
theorem seqStep_transmit (hf : s.params.transmitFallible = true) (hp : j.phase = 2) (hj : j.failed = false) :
    seqStep j s = { s.takeDraw.2 with
      seq := .busy { j with phase := 3, failed := s.takeDraw.1 },
      trace := s.trace ++ [seqAction s.params s.segRom j] } := by
  obtain ⟨-, -, hd⟩ | ⟨hne, -⟩ := seqDraw_cases j (s.emit (seqAction s.params s.segRom j))
  case inr => simp [hp, hf] at hne
  have htake := s.takeDraw_withTrace s.counter (s.trace ++ [seqAction s.params s.segRom j])
  obtain ⟨ds, n, hdraw⟩ := s.takeDraw_spec
  unfold seqStep
  rw [hd, State.emit, htake, hj]
  simp [seqAdvance, hp, State.continueJob, hdraw]

/-- The job that has failed closes its frame and skips the hold. -/
theorem seqStep_failed_close (hk : j.kind = .render) (hp : j.phase = 3) (hf : j.failed = true) :
    seqStep j s = (s.emit (.set j.cs .deasserted)).continueJob { j with phase := 5 } := by
  rw [seqStep_of_phase_ne_two s (by simp [hp])]
  simp [seqAdvance, seqAction, hk, hp, hf]

/-- The job that has failed deasserts its select line and ends. -/
theorem seqStep_failed_deselect (hp : j.phase = 5) (hf : j.failed = true) :
    seqStep j s = (s.emit (.set j.line .deasserted)).finishJob j := by
  rw [seqStep_of_phase_ne_two s (by simp [hp])]
  simp [seqAdvance, seqAction, hp, hf]

/-- An `XMIT` closes its frame and ends. -/
theorem seqStep_xmit_close (hk : j.kind = .xmit) (hp : j.phase = 3) :
    seqStep j s = (s.emit (.set j.cs .deasserted)).finishJob j := by
  rw [seqStep_of_phase_ne_two s (by simp [hp])]
  simp [seqAdvance, seqAction, hk, hp]

/-- The two closing actions of a `RENDER` whose byte has failed, and its answer. -/
theorem runSteps_failed_render {l : LineId} (hj : s.seq = .busy j) (he : s.irqQueue = []) (hk : j.kind = .render)
    (hp : j.phase = 3) (hf : j.failed = true) (hl : PerDigit.get j.sel j.slot = some l) :
    runSteps 2 s = .next { s with
      seq := .idle, pending := false, trace := s.trace ++ [.set j.cs .deasserted, .set l .deasserted],
      responses := s.responses ++ [⟨.transmitFailed, 0⟩] } := by
  have h1 := step_busy hj he
  rw [seqStep_failed_close hk hp hf] at h1
  have h2 := step_busy (State.continueJob_seq (s.emit (.set j.cs .deasserted)) { j with phase := 5 }) he
  rw [seqStep_failed_deselect (j := { j with phase := 5 }) rfl hf] at h2
  rw [runSteps_succ 1 h1, runSteps_one h2, Job.line_of_get (j := { j with phase := 5 }) hl]
  simp [State.finishJob, State.respond, State.continueJob, State.emit, hf]

/-- The closing action of an `XMIT` whose byte has failed, and its answer. -/
theorem runSteps_failed_xmit (hj : s.seq = .busy j) (he : s.irqQueue = []) (hk : j.kind = .xmit)
    (hp : j.phase = 3) (hf : j.failed = true) :
    runSteps 1 s = .next { s with
      seq := .idle, pending := false, trace := s.trace ++ [.set j.cs .deasserted],
      responses := s.responses ++ [⟨.transmitFailed, 0⟩] } := by
  have h1 := step_busy hj he
  rw [seqStep_xmit_close hk hp] at h1
  rw [runSteps_one h1]
  simp [State.finishJob, State.respond, State.emit, hf]

end

/-- Settles O40: the transmit step draws (`seqStep_transmit`); a job marked failed closes its frame, and a `RENDER` then
deselects its line. -/
theorem failedTransmitClosesAndAborts : Obligations.FailedTransmitClosesAndAborts := by
  intro s j g hs hf he hj hp hg
  have hnf := (hs.jobOk hj).not_failed_of_transmit hp
  have hact : seqAction s.params s.segRom j = .spi j.chan (s.segRom.read g) := by
    simp [seqAction, hp, Job.digitNow_of_get hg]
  have hirq : s.takeDraw.2.irqQueue = [] := s.takeDraw_irqQueue.trans he
  have h1 := step_busy hj he
  rw [seqStep_transmit hf hp hnf, hact] at h1
  refine ⟨fun l hk hfail hl => ?_, fun hk hfail => ?_, fun hok => ?_⟩
  · rw [hfail] at h1
    refine (runSteps_succ 2 h1).trans ((runSteps_failed_render (j := { j with phase := 3, failed := true }) rfl
      (by exact hirq) hk rfl rfl hl).trans ?_)
    simp
  · rw [hfail] at h1
    refine (runSteps_succ 1 h1).trans ((runSteps_failed_xmit (j := { j with phase := 3, failed := true }) rfl
      (by exact hirq) hk rfl rfl).trans ?_)
    simp
  · rw [hok] at h1
    rw [h1, ← hnf]

/-! ### Every job ends (R136) -/

/-- Settles O42: each step of a job that no event interrupts leaves it fewer steps or ends it (`seqStep_stepsLeft`). -/
theorem startedJobRunsToItsResponse : Obligations.StartedJobRunsToItsResponse := by
  intro s j hs hj he
  generalize hm : Job.stepsLeft j = m
  induction m using Nat.strong_induction_on generalizing s j with
  | _ m ih =>
  have h1 := step_busy hj he
  have hbq := seqStep_bgQueue j s
  have hiq := seqStep_irqQueue j s
  obtain ⟨j', hj', hr, -, hlt⟩ | ⟨hidle, hp, hpos, r, hr⟩ := seqStep_stepsLeft (hs.jobOk hj)
  · obtain ⟨n, t, hn, hrun, hti, htp, htb, r, htr⟩ := ih _ (hm ▸ hlt) _ j' (step_inv hs h1) hj' (hiq.trans he) rfl
    exact ⟨n + 1, t, by omega, (runSteps_succ n h1).trans hrun, hti, htp, htb.trans hbq, r, by rw [htr, hr]⟩
  · exact ⟨1, _, by omega, runSteps_one h1, hidle, hp, hbq, r, hr⟩

end Sys2Proof.Machine

/-! PROOFS. The statements about events beside the other steps (42_counter_event.md, 60_exceptions.md R228, R229) and
about the levels their toggles give (10_state.md R33, 70_reset_and_hazards.md R267). -/

namespace Sys2Proof.Machine

/-! ### An event and a sequencer step -/

/-- What an event appends to the trace and where it leaves the counter depend on the button, the LED and the counter
alone. -/
theorem exec_event_uniform (p : PinId) (s : State) :
    ∃ es c, ∀ u : State, u.btnCfg = s.btnCfg → u.ledCfg = s.ledCfg → u.counter = s.counter →
      exec (.event p) u = .next { u with counter := c, trace := u.trace ++ es } := by
  by_cases hb : s.btnCfg = some p
  · cases hl : s.ledCfg with
    | none =>
      refine ⟨[], nextCount s.counter, fun u hub hul huc => ?_⟩
      rw [exec_event_of_button (hub.trans hb), State.toggleLed_of_none hul, huc, List.append_nil]
    | some l =>
      refine ⟨[.toggle l], nextCount s.counter, fun u hub hul huc => ?_⟩
      rw [exec_event_of_button (hub.trans hb), State.toggleLed_of_some hul, huc]
      rfl
  · refine ⟨[], s.counter, fun u hub _ huc => ?_⟩
    rw [exec_event_of_ne (by rw [hub]; exact hb), ← huc, List.append_nil]

/-- Settles O47: by `exec_event_uniform` the event does the same before and after the sequencer step, and by
`seqStep_withTrace` the sequencer step does not see it. -/
theorem eventCommutesWithSequencerStep : Obligations.EventCommutesWithSequencerStep := by
  intro s s1 j p hj h
  obtain ⟨es, c, hev⟩ := exec_event_uniform p s
  obtain rfl := Host.Outcome.next.inj ((hev s rfl rfl rfl).symm.trans h)
  have hseq := seqStep_withTrace j s c (s.trace ++ es)
  refine ⟨_, es, hev (seqStep j s) (seqStep_btnCfg j s) (seqStep_ledCfg j s) (seqStep_counter j s), hj, ?_, rfl, ?_, ?_⟩
  · rw [hseq]
  · rw [hseq, List.append_assoc]
  · rw [seqStep_trace, List.append_assoc]

/-! ### Counting the delivered events -/

/-- The four kinds of action a sequencer step emits (41_digit_multiplexer.md R126). -/
theorem seqAction_cases (ps : Params) (rom : Memory) (j : Job) :
    (∃ lv, (j.phase = 0 ∨ j.phase = 5) ∧ seqAction ps rom j = .set j.line lv) ∨
      (∃ lv, seqAction ps rom j = .set j.cs lv) ∨ (∃ b, seqAction ps rom j = .spi j.chan b) ∨
      seqAction ps rom j = .delay ps.holdMs := by
  unfold seqAction
  split
  · next h => exact .inl ⟨_, .inl h, rfl⟩
  · exact .inr (.inl ⟨_, rfl⟩)
  · exact .inr (.inr (.inl ⟨_, rfl⟩))
  · exact .inr (.inl ⟨_, rfl⟩)
  · exact .inr (.inr (.inr rfl))
  · next h => exact .inl ⟨_, .inr h, rfl⟩

/-- A sequencer step's action is no toggle. -/
theorem seqAction_isToggle (ps : Params) (rom : Memory) (j : Job) : (seqAction ps rom j).isToggle = false := by
  obtain ⟨lv, -, h⟩ | ⟨lv, h⟩ | ⟨b, h⟩ | h := seqAction_cases ps rom j <;> rw [h] <;> rfl

/-- The words that qualify, with the button at a pin (42_counter_event.md R164, R165). -/
def qualifying (b : PinId) (ws : List CmdWord) : Nat :=
  ws.countP fun w => decide (decode .irq w = .instr (.event b))

/-- Between `s` and `t` the words `ws` were delivered, the button at `b`: the counter advanced by those that qualify,
and the LED line of `s`, if bound, was toggled for each of them. -/
def Delivered (b : PinId) (ws : List CmdWord) (s t : State) : Prop :=
  s.irqQueue = ws ++ t.irqQueue ∧ t.counter = (s.counter + qualifying b ws) % 1000 ∧
    ∀ l, s.ledCfg = some l →
      t.trace.filter Action.isToggle =
        s.trace.filter Action.isToggle ++ List.replicate (qualifying b ws) (.toggle l)

section
variable {b : PinId} {s t : State}

/-- Where nothing was delivered: the queue and the counter as they were, and no toggle more. -/
theorem Delivered.nil (hc : s.counter ≤ Config.countMax) (hq : t.irqQueue = s.irqQueue) (htc : t.counter = s.counter)
    (htr : t.trace.filter Action.isToggle = s.trace.filter Action.isToggle) : Delivered b [] s t := by
  refine ⟨hq.symm, ?_, fun l _ => by simp [htr, qualifying]⟩
  rw [htc]
  exact (Nat.mod_eq_of_lt (Nat.lt_succ_of_le hc)).symm

/-- Deliveries one after the other. -/
theorem Delivered.append {u : State} {ws vs : List CmdWord} (h1 : Delivered b ws s t) (h2 : Delivered b vs t u)
    (hl : ∀ l, s.ledCfg = some l → t.ledCfg = some l) : Delivered b (ws ++ vs) s u := by
  obtain ⟨hq1, hc1, ht1⟩ := h1
  obtain ⟨hq2, hc2, ht2⟩ := h2
  have hn : qualifying b (ws ++ vs) = qualifying b ws + qualifying b vs := List.countP_append
  refine ⟨by rw [hq1, hq2, List.append_assoc], ?_, fun l hs => ?_⟩
  · rw [hc2, hc1, hn, Nat.mod_add_mod, Nat.add_assoc]
  · rw [ht2 l (hl l hs), ht1 l hs, hn, List.append_assoc, List.replicate_append_replicate]

/-- One delivery. -/
theorem deliverWord_delivered {w : CmdWord} {rest : List CmdWord} (hc : s.counter ≤ Config.countMax)
    (hb : s.btnCfg = some b) (hq : s.irqQueue = w :: rest) (hw : deliverWord w { s with irqQueue := rest } = .next t) :
    Delivered b [w] s t := by
  obtain ⟨ht, ⟨htc, htr, hd⟩ | ⟨p, hd, hp, htc, htr⟩⟩ := deliverWord_frame hw
  · have hn : qualifying b [w] = 0 := by simp [qualifying, hd b hb]
    refine ⟨by rw [hq, ht]; rfl, ?_, fun l _ => ?_⟩
    · rw [htc, hn]
      exact (Nat.mod_eq_of_lt (Nat.lt_succ_of_le hc)).symm
    · rw [htr, hn]
      simp
  · obtain rfl : b = p := Option.some.inj (hb.symm.trans hp)
    have hn : qualifying b [w] = 1 := by simp [qualifying, hd]
    refine ⟨by rw [hq, ht]; rfl, ?_, fun l hl => ?_⟩
    · rw [htc, hn]
      exact nextCount_eq_mod s.counter hc
    · obtain ⟨hnone, -⟩ | ⟨l', hl', htr⟩ := htr
      · exact absurd (hl.symm.trans hnone) (by simp)
      · obtain rfl : l = l' := Option.some.inj (hl.symm.trans hl')
        rw [htr, hn]
        simp [Action.isToggle]

/-- A step delivers at most one word. -/
theorem step_delivered (hc : s.counter ≤ Config.countMax) (hb : s.btnCfg = some b) (h : step s = .next t) :
    ∃ ws, Delivered b ws s t := by
  obtain ⟨-, -, rfl⟩ | ⟨ts, n, ⟨j, -, rfl⟩ | ⟨w, rest, -, -, -, hw⟩ | ⟨w, rest, hq, hw⟩⟩ := step_cases h
  case inl => exact ⟨[], .nil hc rfl rfl rfl⟩
  case inr.inl =>
    refine ⟨[], .nil hc (seqStep_irqQueue j _) (seqStep_counter j _) ?_⟩
    rw [seqStep_trace, List.filter_append]
    simp [seqAction_isToggle]
  case inr.inr.inl =>
    obtain ⟨htc, htr, -, -, -, hq, -⟩ := issueWord_frame hw
    exact ⟨[], .nil hc hq htc (by rw [htr])⟩
  case inr.inr.inr =>
    exact ⟨[w], deliverWord_delivered (s := { s with turns := ts, freeIx := n }) hc hb hq hw⟩

end

/-- A run of several steps is a step and the rest of the run. -/
theorem runSteps_succ_cases {k : Nat} {s t : State} (h : runSteps (k + 1) s = .next t) :
    ∃ u, step s = .next u ∧ runSteps k u = .next t := by
  obtain ⟨u, hu⟩ := everyStepAnswersAState s
  exact ⟨u, hu, (runSteps_succ k hu).symm.trans h⟩

/-- Over any run some words were delivered. -/
theorem runSteps_delivered {k : Nat} {s t : State} {b : PinId} (hc : s.counter ≤ Config.countMax)
    (hb : s.btnCfg = some b) (h : runSteps k s = .next t) : ∃ ws, Delivered b ws s t := by
  induction k generalizing s with
  | zero =>
    obtain rfl := Host.Outcome.next.inj h
    exact ⟨[], .nil hc rfl rfl rfl⟩
  | succ k ih =>
    obtain ⟨u, hu, hrun⟩ := runSteps_succ_cases h
    obtain ⟨-, -, hled, hbtn, -⟩ := step_keeps hu
    obtain ⟨ws, hws⟩ := step_delivered hc hb hu
    obtain ⟨vs, hvs⟩ := ih (step_counter_le hc hu) (hbtn b hb) hrun
    exact ⟨ws ++ vs, hws.append hvs hled⟩

/-- Settles O46: `runSteps_delivered`. -/
theorem counterCountsTheDeliveredEvents : Obligations.CounterCountsTheDeliveredEvents :=
  fun _ _ _ _ hc hb h => runSteps_delivered hc hb h

/-! ### Levels after toggles (10_state.md R33) -/

/-- An action that does not `SET` a line flips its level if it is the line's `TOGGLE`, and else leaves it. -/
theorem levelStep_of_not_set {l : LineId} {a : Action} (h : ∀ lv, a ≠ .set l lv) (v : Option Level) :
    levelStep l v a = if a = .toggle l then v.map Level.other else v := by
  cases a with
  | set k lv =>
    have hk : k ≠ l := fun hk => h lv (hk ▸ rfl)
    simp [levelStep, hk]
  | toggle k => simp [levelStep]
  | spi ch b => simp [levelStep]
  | delay ms => simp [levelStep]

/-- Settles O48: by induction from the last action, each by `levelStep_of_not_set`. -/
theorem togglesFlipTheLevel : Obligations.TogglesFlipTheLevel := by
  intro l as hset
  induction as using List.reverseRecOn with
  | nil => exact ⟨fun v => rfl, rfl⟩
  | append_singleton as a ih =>
    obtain ⟨hsome, hnone⟩ := ih fun v hv => hset v (List.mem_append_left _ hv)
    have ha : ∀ lv, a ≠ .set l lv := fun lv hlv => hset lv (by simp [hlv])
    simp only [levelFrom_append, hsome, hnone, levelFrom_cons, levelFrom_nil, levelStep_of_not_set ha]
    by_cases ht : a = .toggle l
    · simp [ht, levelAfterToggles_succ]
    · simp [ht]

/-! ### The LED's level and the parity of the counter (70_reset_and_hazards.md R267) -/

section
variable {s : State} {j : Job} {led : LineId}

/-- The chip-select line of a job in order is not the LED line. -/
theorem JobOk.led_ne_cs (h : JobOk s j) (ho : LedLineOwn s led) : led ≠ j.cs := by
  obtain ⟨hc, -⟩ := h
  exact ho.2 _ hc

/-- The select line of a `RENDER` in order is not the LED line. -/
theorem JobOk.led_ne_line (h : JobOk s j) (ho : LedLineOwn s led) (hk : j.kind = .render) : led ≠ j.line := by
  obtain ⟨-, -, hkind⟩ := h
  rw [hk] at hkind
  obtain ⟨⟨d, hd, hsel⟩, -⟩ := hkind
  obtain ⟨hh, ht, hu⟩ := ho.1 d hd
  rw [Job.line_of_get (by rw [hsel, PerDigit.get_present])]
  match j.slot with
  | 0 => exact hh
  | 1 => exact ht
  | 2 => exact hu

/-- No action of a job in order changes the LED's level. -/
theorem levelStep_seqAction (h : JobOk s j) (ho : LedLineOwn s led) (ps : Params) (rom : Memory) (v : Option Level) :
    levelStep led v (seqAction ps rom j) = v := by
  obtain ⟨lv, hp, ha⟩ | ⟨lv, ha⟩ | ⟨b, ha⟩ | ha := seqAction_cases ps rom j <;> rw [ha]
  · have hk : j.kind = .render := by
      cases hk : j.kind with
      | render => rfl
      | xmit => obtain hp | hp := hp <;> exact absurd (h.phase_of_xmit hk) (by simp [hp])
    simp [levelStep, (h.led_ne_line ho hk).symm]
  · simp [levelStep, (h.led_ne_cs ho).symm]
  · rfl
  · rfl

end

/-- One event more flips the parity of the counter, across the wrap too: 999 is odd and 0 is even. -/
theorem levelAfterToggles_nextCount (v : Level) {c : Nat} (hc : c ≤ Config.countMax) :
    levelAfterToggles v (nextCount c) = Level.other (levelAfterToggles v c) := by
  rw [← levelAfterToggles_succ]
  unfold levelAfterToggles
  have hmod : nextCount c % 2 = (c + 1) % 2 := by
    rw [nextCount_eq_mod c hc]
    omega
  rw [hmod]

/-- Settles O49: a sequencer step and an issue step change neither the LED's level nor the counter, and an event changes
either both or neither. -/
theorem ledParityFollowsTheCounter : Obligations.LedParityFollowsTheCounter := by
  intro s t led v hs hled ho hv h
  obtain ⟨-, -, rfl⟩ | ⟨ts, n, ⟨j, hj, rfl⟩ | ⟨w, rest, -, -, -, hw⟩ | ⟨w, rest, hq, hw⟩⟩ := step_cases h
  case inl => exact hv
  case inr.inl =>
    rw [seqStep_trace, seqStep_counter, levelFrom_append, hv]
    exact levelStep_seqAction (hs.jobOk hj) ho _ _ _
  case inr.inr.inl =>
    obtain ⟨htc, htr, -⟩ := issueWord_frame hw
    rw [htr, htc, hv]
  case inr.inr.inr =>
    obtain ⟨-, ⟨htc, htr, -⟩ | ⟨p, -, -, htc, ⟨hnone, -⟩ | ⟨l, hl, htr⟩⟩⟩ := deliverWord_frame hw
    · rw [htr, htc, hv]
    · exact absurd (hled.symm.trans hnone) (by simp)
    · obtain rfl : led = l := Option.some.inj (hled.symm.trans hl)
      rw [htr, htc, levelFrom_append, hv]
      simp [levelStep, levelAfterToggles_nextCount v hs.counter_le]

end Sys2Proof.Machine

/-! PROOFS. The statements about whole runs: they end (70_reset_and_hazards.md R275) and are fair (R272, R276). -/

namespace Sys2Proof.Machine

/-! ### Every run ends -/

theorem Job.stepsLeft_le (j : Job) : Job.stepsLeft j ≤ 18 := by
  unfold Job.stepsLeft
  cases j.kind <;> dsimp only <;> omega

section
variable {s : State}

theorem State.workLeft_of_idle (hs : s.seq = .idle) :
    s.workLeft = 19 * s.bgQueue.length + s.irqQueue.length := by
  simp [State.workLeft, hs]

theorem State.workLeft_of_busy {j : Job} (hs : s.seq = .busy j) :
    s.workLeft = 19 * s.bgQueue.length + s.irqQueue.length + Job.stepsLeft j := by
  simp [State.workLeft, hs]

/-- Within the invariant, where neither agent has a step the run is complete. -/
theorem State.Inv.complete_of_no_step (hs : s.Inv) (hb : s.bgReady = false) (hi : s.irqReady = false) :
    s.complete := by
  cases hq : s.seq with
  | busy j => simp [State.bgReady_of_busy hq] at hb
  | idle =>
    have hp := hs.pending_of_idle hq
    refine ⟨hq, hp, ?_, State.irqReady_eq_false_iff.mp hi⟩
    simpa [State.bgReady, hq, hp] using hb

/-- Every step of a run that is not complete leaves less to do. -/
theorem step_workLeft_lt {t : State} (hs : s.Inv) (hc : ¬ s.complete) (h : step s = .next t) :
    t.workLeft < s.workLeft := by
  obtain ⟨hb, hi, -⟩ | ⟨ts, n, ⟨j, hj, rfl⟩ | ⟨w, rest, hi, -, hq, hw⟩ | ⟨w, rest, hq, hw⟩⟩ := step_cases h
  case inl => exact absurd (hs.complete_of_no_step hb hi) hc
  case inr.inl =>
    obtain ⟨j', hj', -, -, hlt⟩ | ⟨hidle, -, hpos, -⟩ :=
      seqStep_stepsLeft (s := { s with turns := ts, freeIx := n }) ((hs.jobOk hj).congr rfl rfl rfl)
    · rw [State.workLeft_of_busy hj', State.workLeft_of_busy hj, seqStep_bgQueue, seqStep_irqQueue]
      exact Nat.add_lt_add_left hlt _
    · rw [State.workLeft_of_idle hidle, State.workLeft_of_busy hj, seqStep_bgQueue, seqStep_irqQueue]
      exact Nat.lt_add_of_pos_right hpos
  case inr.inr.inl =>
    obtain ⟨-, -, -, -, hbq, hiq, -⟩ := issueWord_frame hw
    rw [State.workLeft_of_idle hi, hq, List.length_cons]
    obtain ⟨hidle, -⟩ | ⟨j, -, rfl⟩ := issueWord_answers_or_starts hw
    · rw [State.workLeft_of_idle (hidle.trans hi), hbq, hiq]
      dsimp only
      omega
    · have hle := j.stepsLeft_le
      rw [State.workLeft_of_busy (State.startJob_seq _ j), hbq, hiq]
      dsimp only
      omega
  case inr.inr.inr =>
    obtain ⟨ht, -⟩ := deliverWord_frame hw
    rw [ht]
    simp only [State.workLeft, hq, List.length_cons]
    omega

end

/-- Settles O54: each step leaves less to do (`step_workLeft_lt`) and keeps the responses due
(`step_keeps_responses_due`). -/
theorem everyRunCompletes : Obligations.EveryRunCompletes := by
  intro s hs
  generalize hm : s.workLeft = m
  induction m using Nat.strong_induction_on generalizing s with
  | _ m ih =>
  by_cases hc : s.complete
  · obtain ⟨-, hp, hb, -⟩ := id hc
    exact ⟨0, s, Nat.zero_le _, rfl, hc, by simp [hp, hb]⟩
  · obtain ⟨u, hu⟩ := everyStepAnswersAState s
    have hlt := step_workLeft_lt hs hc hu
    have hdue := step_keeps_responses_due (fun _ => hs.pending_of_busy) hu
    obtain ⟨n, t, hn, hrun, htc, hr⟩ := ih _ (hm ▸ hlt) u (step_inv hs hu) rfl
    exact ⟨n + 1, t, by omega, (runSteps_succ n hu).trans hrun, htc, by omega⟩

/-! ### Every run is fair -/

/-- From a busy machine BG's turn comes after finitely many events, the job unchanged: each of them shortens IRQ's
queue. -/
theorem exists_run_bgGoesNext {s : State} {j : Job} (hj : s.seq = .busy j) :
    ∃ n t, runSteps n s = .next t ∧ t.seq = .busy j ∧ t.bgGoesNext := by
  generalize hm : s.irqQueue.length = m
  induction m using Nat.strong_induction_on generalizing s with
  | _ m ih =>
  obtain ⟨hb, -⟩ | ⟨a, ts, k, -, hirq, hnext⟩ := nextAgent_cases s
  · simp [State.bgReady_of_busy hj] at hb
  · cases a with
    | bg => exact ⟨0, s, rfl, hj, _, hnext⟩
    | irq =>
      obtain ⟨w, rest, hq⟩ := List.exists_cons_of_ne_nil (State.irqReady_eq_true_iff.mp (hirq rfl))
      obtain ⟨u, hu⟩ := deliverWord_answers w { s with turns := ts, freeIx := k, irqQueue := rest }
      have hstep : step s = .next u := by
        rw [step, machineStep, hnext]
        exact (irqStep_cons (s := { s with turns := ts, freeIx := k }) hq).trans hu
      obtain ⟨ht, -⟩ := deliverWord_frame hu
      obtain ⟨n, t, hrun, htj, hbg⟩ := ih _ (by rw [← hm, hq, ht]; simp) (s := u) (by rw [ht]; exact hj) rfl
      exact ⟨n + 1, t, (runSteps_succ n hstep).trans hrun, htj, hbg⟩

/-- Settles O59: `exists_run_bgGoesNext`; and no run delivers more events than were waiting at its start. -/
theorem everyRunIsFair : Obligations.EveryRunIsFair := fun start =>
  ⟨fun _ _ _ _ hj => exists_run_bgGoesNext hj, start.irqQueue.length, fun _ _ _ => Nat.le_add_left _ _⟩

end Sys2Proof.Machine

/-! PROOFS. The statements about the boot (70_reset_and_hazards.md section 2): configuration commands of different
registers, all unset, are each answered `OK`, and a configuration command answered `OK` has bound its register. -/

namespace Sys2Proof.Machine

/-! ### Registers bound by commands -/

/-- A configuration command whose register is unset. -/
def Instr.Free (i : Instr) (s : State) : Prop :=
  match i with
  | .cfgLed _ => s.ledCfg = none
  | .cfgBtn _ => s.btnCfg = none
  | .cfgDisp _ _ _ => s.dispCfg = none
  | .cfgChan _ _ => s.chanCfg = none
  | _ => False

/-- What a configuration command binds is bound; of another command, nothing is said. -/
def Instr.Bound (i : Instr) (s : State) : Prop :=
  match i with
  | .cfgLed l => s.ledCfg = some l
  | .cfgBtn p => s.btnCfg = some p
  | .cfgDisp h t u => s.dispCfg = some ⟨h, t, u⟩
  | .cfgChan c l => s.chanCfg = some ⟨c, l⟩
  | _ => True

/-- The state with the register of a configuration command bound, and the command answered `OK`. -/
def Instr.bindOk (i : Instr) (s : State) : State :=
  match i with
  | .cfgLed l => State.respond { s with ledCfg := some l } .ok 0
  | .cfgBtn p => State.respond { s with btnCfg := some p } .ok 0
  | .cfgDisp h t u => State.respond { s with dispCfg := some ⟨h, t, u⟩ } .ok 0
  | .cfgChan c l => State.respond { s with chanCfg := some ⟨c, l⟩ } .ok 0
  | _ => s

section
variable {i k : Instr} {s t : State}

theorem Instr.Free.port (h : Instr.Free i s) : i.port = .bg := by
  cases i with
  | event n => exact h.elim
  | _ => rfl

/-- A configuration command whose register is unset binds it and is answered `OK`. -/
theorem exec_of_free (h : Instr.Free i s) : exec i s = .next (Instr.bindOk i s) := by
  cases i with
  | cfgLed l => exact (exec_cfgLed s l).trans (congrArg _ (State.bindOnce_of_none h))
  | cfgBtn p => exact (exec_cfgBtn s p).trans (congrArg _ (State.bindOnce_of_none h))
  | cfgDisp a b c => exact (exec_cfgDisp s a b c).trans (congrArg _ (State.bindOnce_of_none h))
  | cfgChan c l => exact (exec_cfgChan s c l).trans (congrArg _ (State.bindOnce_of_none h))
  | _ => exact h.elim

/-- Binding one register leaves `SEQ` and the queues as they are, and answers. -/
theorem Instr.bindOk_frame (h : Instr.Free i s) :
    (Instr.bindOk i s).seq = s.seq ∧ (Instr.bindOk i s).pending = false ∧
      (Instr.bindOk i s).bgQueue = s.bgQueue ∧ (Instr.bindOk i s).irqQueue = s.irqQueue ∧
      (Instr.bindOk i s).responses = s.responses ++ [⟨.ok, 0⟩] := by
  cases i with
  | cfgLed | cfgBtn | cfgDisp | cfgChan => exact ⟨rfl, rfl, rfl, rfl, rfl⟩
  | _ => exact h.elim

/-- Binding one register leaves the others unset: the commands of one register are those of one row of the opcode
map. -/
theorem Instr.Free.bindOk (h : Instr.Free k s) (hne : i.row ≠ k.row) : Instr.Free k (Instr.bindOk i s) := by
  cases i with
  | cfgLed l =>
    cases k with
    | cfgLed => exact absurd rfl hne
    | _ => exact h
  | cfgBtn p =>
    cases k with
    | cfgBtn => exact absurd rfl hne
    | _ => exact h
  | cfgDisp a b c =>
    cases k with
    | cfgDisp => exact absurd rfl hne
    | _ => exact h
  | cfgChan c l =>
    cases k with
    | cfgChan => exact absurd rfl hne
    | _ => exact h
  | _ => exact h

/-- A configuration command answered `OK` has bound its register. -/
theorem exec_bound (h : exec i s = .next t) (hok : ∀ r, t.responses[s.responses.length]? = some r → r.status = .ok) :
    Instr.Bound i t := by
  have refused (ht : t = s.raise .alreadyConfigured) : Instr.Bound i t := by
    subst ht
    simpa using hok ⟨.alreadyConfigured, 0⟩ (by simp)
  cases i with
  | cfgLed l =>
    obtain rfl := Host.Outcome.next.inj h
    obtain ⟨-, hb⟩ | ⟨-, -, hb⟩ := s.bindOnce_cases s.ledCfg { s with ledCfg := some l }
    · rw [hb]
      rfl
    · exact refused hb
  | cfgBtn p =>
    obtain rfl := Host.Outcome.next.inj h
    obtain ⟨-, hb⟩ | ⟨-, -, hb⟩ := s.bindOnce_cases s.btnCfg { s with btnCfg := some p }
    · rw [hb]
      rfl
    · exact refused hb
  | cfgDisp a b c =>
    obtain rfl := Host.Outcome.next.inj h
    obtain ⟨-, hb⟩ | ⟨-, -, hb⟩ := s.bindOnce_cases s.dispCfg { s with dispCfg := some ⟨a, b, c⟩ }
    · rw [hb]
      rfl
    · exact refused hb
  | cfgChan c l =>
    obtain rfl := Host.Outcome.next.inj h
    obtain ⟨-, hb⟩ | ⟨-, -, hb⟩ := s.bindOnce_cases s.chanCfg { s with chanCfg := some ⟨c, l⟩ }
    · rw [hb]
      rfl
    · exact refused hb
  | _ => trivial

/-- What is bound stays bound. -/
theorem Instr.Bound.step (h : Instr.Bound i s) (hs : step s = .next t) : Instr.Bound i t := by
  obtain ⟨-, -, hl, hb, hd, hc⟩ := step_keeps hs
  cases i with
  | cfgLed l => exact hl _ h
  | cfgBtn p => exact hb _ h
  | cfgDisp a b c => exact hd _ h
  | cfgChan c l => exact hc _ h
  | _ => trivial

end

/-! ### The boot commands -/

/-- The boot commands, of which `Wiring.bootWords` are the words. -/
def Wiring.bootInstrs (w : Wiring) (chanFirst : Bool) : List Instr :=
  let disp := Instr.cfgDisp w.disp.hundreds w.disp.tens w.disp.units
  let chan := Instr.cfgChan w.chan.chan w.chan.cs
  (if chanFirst then [chan, disp] else [disp, chan]) ++ [.cfgLed w.led, .cfgBtn w.btn]

section
variable (w : Wiring) (chanFirst : Bool)

theorem Wiring.bootWords_eq : w.bootWords chanFirst = (w.bootInstrs chanFirst).map encode := by
  cases chanFirst <;> rfl

theorem Wiring.bootInstrs_rows : (w.bootInstrs chanFirst).Pairwise fun i k => i.row ≠ k.row := by
  cases chanFirst <;> simp [Wiring.bootInstrs, Instr.row]

/-- At a start state the registers of all boot commands are unset. -/
theorem Wiring.bootInstrs_free {s : State} (h : ResetState s) : ∀ i ∈ w.bootInstrs chanFirst, Instr.Free i s := by
  obtain ⟨-, hl, hb, hd, hc, -⟩ := h
  cases chanFirst <;> simp [Wiring.bootInstrs, Instr.Free, hl, hb, hd, hc]

end

/-- With no event waiting, commands of different registers, all unset, bind them one a step. -/
theorem runSteps_bindOk {is : List Instr} {rest : List CmdWord} {s : State} (hs : s.seq = .idle)
    (hp : s.pending = false) (he : s.irqQueue = []) (hq : s.bgQueue = is.map encode ++ rest)
    (hfree : ∀ i ∈ is, Instr.Free i s) (hrows : is.Pairwise fun i k => i.row ≠ k.row) :
    runSteps is.length s = .next (is.foldl (fun u i => Instr.bindOk i u) { s with bgQueue := rest }) := by
  induction is generalizing s with
  | nil => rw [← show s.bgQueue = rest from hq]; rfl
  | cons i is ih =>
    obtain ⟨hne, hrows⟩ := List.pairwise_cons.mp hrows
    have hi : Instr.Free i { s with bgQueue := is.map encode ++ rest } := hfree i List.mem_cons_self
    have hstep := (step_issue_encode hi.port hs hp hq he).trans (exec_of_free hi)
    obtain ⟨hseq, hpend, hbq, hiq, -⟩ := Instr.bindOk_frame hi
    have hback : { Instr.bindOk i { s with bgQueue := is.map encode ++ rest } with bgQueue := rest } =
        Instr.bindOk i { s with bgQueue := rest } := by cases i <;> rfl
    rw [List.length_cons, runSteps_succ _ hstep, List.foldl_cons, ← hback]
    exact ih (hseq.trans hs) hpend (hiq.trans he) hbq
      (fun k hk => (show Instr.Free k { s with bgQueue := is.map encode ++ rest } from
        hfree k (List.mem_cons_of_mem _ hk)).bindOk (hne k hk)) hrows

/-- The four boot commands together make the configured state. -/
theorem Wiring.foldl_bindOk (w : Wiring) (chanFirst : Bool) {s : State} (hp : s.pending = false) :
    (w.bootInstrs chanFirst).foldl (fun u i => Instr.bindOk i u) s = w.bind s := by
  cases chanFirst <;>
    simp [Wiring.bootInstrs, Instr.bindOk, Wiring.bind, State.respond, List.replicate, hp]

/-- Settles O25: `runSteps_bindOk` on the boot commands. -/
theorem bootReachesTheConfiguredState : Obligations.BootReachesTheConfiguredState := by
  have boot (w : Wiring) (chanFirst : Bool) (rest : List CmdWord) (start : State) (h : ResetState start)
      (he : start.irqQueue = []) (hq : start.bgQueue = w.bootWords chanFirst ++ rest) :
      runSteps 4 start = .next { w.bind start with bgQueue := rest } := by
    obtain ⟨-, -, -, -, -, hs, -, hp, -⟩ := id h
    have hlen : (w.bootInstrs chanFirst).length = 4 := by cases chanFirst <;> rfl
    rw [← hlen, runSteps_bindOk hs hp he (by rw [hq, Wiring.bootWords_eq]) (w.bootInstrs_free chanFirst h)
      (w.bootInstrs_rows chanFirst), Wiring.foldl_bindOk _ _ (by exact hp)]
    rfl
  refine ⟨boot, fun w chanFirst => ?_⟩
  exact (boot w chanFirst [] _ ⟨rfl, rfl, rfl, rfl, rfl, rfl, rfl, rfl, rfl⟩ rfl (by simp))

/-! ### Boot words first, events between -/

/-- No step takes a response back. -/
theorem step_responses {s t : State} (h : step s = .next t) : ∃ rs, t.responses = s.responses ++ rs := by
  obtain ⟨-, -, rfl⟩ | ⟨ts, n, ⟨j, -, rfl⟩ | ⟨w, rest, -, -, -, hw⟩ | ⟨w, rest, -, hw⟩⟩ := step_cases h
  case inl => exact ⟨[], by simp⟩
  case inr.inl =>
    obtain ⟨-, -, r, hr⟩ | ⟨-, -, -, hr⟩ := seqStep_seq_cases j { s with turns := ts, freeIx := n }
    · exact ⟨[r], hr⟩
    · exact ⟨[], by simp [hr]⟩
  case inr.inr.inl =>
    obtain ⟨-, -, r, hr, -⟩ | ⟨j, -, rfl⟩ := issueWord_answers_or_starts hw
    · exact ⟨[r], hr⟩
    · exact ⟨[], by simp⟩
  case inr.inr.inr =>
    obtain ⟨ht, -⟩ := deliverWord_frame hw
    exact ⟨[], by rw [ht]; simp⟩

/-- No run takes a response back. -/
theorem runSteps_responses {k : Nat} {s t : State} (h : runSteps k s = .next t) :
    ∃ rs, t.responses = s.responses ++ rs := by
  induction k generalizing s with
  | zero =>
    obtain rfl := Host.Outcome.next.inj h
    exact ⟨[], by simp⟩
  | succ k ih =>
    obtain ⟨u, hu, hrun⟩ := runSteps_succ_cases h
    obtain ⟨rs, hrs⟩ := step_responses hu
    obtain ⟨rs', hrs'⟩ := ih hrun
    exact ⟨rs ++ rs', by rw [hrs', hrs, List.append_assoc]⟩

/-- The host's next words are configuration commands of different registers, all unset, and BG may issue them. -/
def ToBind (is : List Instr) (rest : List CmdWord) (s : State) : Prop :=
  s.seq = .idle ∧ s.pending = false ∧ s.bgQueue = is.map encode ++ rest ∧ (∀ i ∈ is, Instr.Free i s) ∧
    is.Pairwise fun i k => i.row ≠ k.row

/-- A step either delivers an event and changes none of this, or binds the first of them. -/
theorem ToBind.step {i : Instr} {is : List Instr} {rest : List CmdWord} {s t : State} (hb : ToBind (i :: is) rest s)
    (h : step s = .next t) :
    (ToBind (i :: is) rest t ∧ t.responses = s.responses) ∨
      (ToBind is rest t ∧ t.responses = s.responses ++ [⟨.ok, 0⟩]) := by
  obtain ⟨hs, hp, hq, hfree, hrows⟩ := id hb
  obtain ⟨-, -, rfl⟩ | ⟨ts, n, ⟨j, hj, -⟩ | ⟨w, rest', -, -, hq', hw⟩ | ⟨w, irqRest, -, hw⟩⟩ := step_cases h
  case inl => exact .inl ⟨hb, rfl⟩
  case inr.inl => simp [hs] at hj
  case inr.inr.inl =>
    obtain ⟨rfl, rfl⟩ := List.cons.inj (hq.symm.trans hq')
    obtain ⟨hne, hrows⟩ := List.pairwise_cons.mp hrows
    have free (k : Instr) (hk : k ∈ i :: is) : Instr.Free k
        { s with turns := ts, freeIx := n, bgQueue := is.map encode ++ rest } := hfree k hk
    have hi := free i List.mem_cons_self
    rw [issueWord_of_instr (decode_bg_encode hi.port)] at hw
    obtain rfl := Host.Outcome.next.inj ((exec_of_free hi).symm.trans hw)
    obtain ⟨hseq, hpend, hbq, -, hr⟩ := Instr.bindOk_frame hi
    exact .inr ⟨⟨hseq.trans hs, hpend, hbq,
      fun k hk => (free k (List.mem_cons_of_mem _ hk)).bindOk (hne k hk), hrows⟩, hr⟩
  case inr.inr.inr =>
    obtain ⟨ht, -⟩ := deliverWord_frame hw
    rw [ht]
    exact .inl ⟨⟨hs, hp, hq, hfree, hrows⟩, rfl⟩

/-- Once they are all issued, each of them was answered `OK`, before any other response. -/
theorem ToBind.responses {k : Nat} {is : List Instr} {rest : List CmdWord} {s t : State} (hb : ToBind is rest s)
    (h : runSteps k s = .next t) (hlen : t.bgQueue.length ≤ rest.length) :
    ∃ rs, t.responses = s.responses ++ List.replicate is.length ⟨.ok, 0⟩ ++ rs := by
  induction k generalizing s is with
  | zero =>
    obtain rfl := Host.Outcome.next.inj h
    obtain ⟨-, -, hq, -⟩ := hb
    obtain rfl : is = [] := by simpa [hq] using hlen
    exact ⟨[], by simp⟩
  | succ k ih =>
    cases is with
    | nil =>
      obtain ⟨rs, hrs⟩ := runSteps_responses h
      exact ⟨rs, by simpa using hrs⟩
    | cons i is =>
      obtain ⟨u, hu, hrun⟩ := runSteps_succ_cases h
      obtain ⟨hb', hr⟩ | ⟨hb', hr⟩ := hb.step hu
      · obtain ⟨rs, hrs⟩ := ih hb' hrun
        exact ⟨rs, by rw [hrs, hr]⟩
      · obtain ⟨rs, hrs⟩ := ih hb' hrun
        exact ⟨rs, by rw [hrs, hr]; simp [List.replicate_succ]⟩

/-- Where the host sends the boot words first, the first four responses are `OK` once those are issued. -/
theorem boot_responses {w : Wiring} {chanFirst : Bool} {rest : List CmdWord} {start s : State} {k : Nat}
    (h : ResetState start) (hq : start.bgQueue = w.bootWords chanFirst ++ rest) (hrun : runSteps k start = .next s)
    (hlen : s.bgQueue.length ≤ rest.length) : ∃ rs, s.responses = List.replicate 4 ⟨.ok, 0⟩ ++ rs := by
  obtain ⟨-, -, -, -, -, hs, -, hp, hr⟩ := id h
  have hb : ToBind (w.bootInstrs chanFirst) rest start :=
    ⟨hs, hp, by rw [hq, Wiring.bootWords_eq], w.bootInstrs_free chanFirst h, w.bootInstrs_rows chanFirst⟩
  obtain ⟨rs, hrs⟩ := hb.responses hrun hlen
  have hlen4 : (w.bootInstrs chanFirst).length = 4 := by cases chanFirst <;> rfl
  exact ⟨rs, by rw [hrs, hr, hlen4, List.nil_append]⟩

/-- So steps 2 and 3 of the boot order were done. -/
theorem bootAnswered_of_words_first {w : Wiring} {chanFirst : Bool} {rest : List CmdWord} {start s : State} {k : Nat}
    (h : ResetState start) (hq : start.bgQueue = w.bootWords chanFirst ++ rest) (hrun : runSteps k start = .next s)
    (hlen : s.bgQueue.length ≤ rest.length) : BootAnswered w start s := by
  obtain ⟨rs, hrs⟩ := boot_responses h hq hrun hlen
  obtain ⟨-, -, -, -, -, -, -, hp, hr⟩ := h
  have answered {n : Nat} {word : CmdWord} (hn : n < 4) (hword : (w.bootWords chanFirst ++ rest)[n]? = some word) :
      AnsweredOk start s n word := by
    refine ⟨by rw [hq, hword], ?_⟩
    rw [hr, hp, hrs, Bool.toNat_false, List.length_nil, Nat.add_zero, Nat.zero_add,
      List.getElem?_append_left (by simpa using hn)]
    exact List.getElem?_replicate.trans (if_pos hn)
  refine ⟨⟨k, hrun⟩, chanFirst.toNat, (!chanFirst).toNat, 2, 3, ?_⟩
  cases chanFirst with
  | false => exact ⟨by decide, by decide, by decide, answered (by decide) rfl, answered (by decide) rfl,
      answered (by decide) rfl, answered (by decide) rfl⟩
  | true => exact ⟨by decide, by decide, by decide, answered (by decide) rfl, answered (by decide) rfl,
      answered (by decide) rfl, answered (by decide) rfl⟩

/-! ### Boot words among others -/

/-- A response is pending exactly while a job is in progress: this part of the invariant needs no legal arguments. -/
def PendingIffBusy (s : State) : Prop := s.pending = true ↔ ∃ j, s.seq = .busy j

theorem PendingIffBusy.step {s t : State} (hs : PendingIffBusy s) (h : step s = .next t) : PendingIffBusy t := by
  obtain ⟨-, -, rfl⟩ | ⟨ts, n, ⟨j, hj, rfl⟩ | ⟨w, rest, hi, hp, hq, hw⟩ | ⟨w, rest, -, hw⟩⟩ := step_cases h
  case inl => exact hs
  case inr.inl =>
    obtain ⟨hi, hp, -⟩ | ⟨j', hj', hp, -⟩ := seqStep_seq_cases j { s with turns := ts, freeIx := n }
    · simp [PendingIffBusy, hi, hp]
    · exact ⟨fun _ => ⟨j', hj'⟩, fun _ => hp.trans (hs.mpr ⟨j, hj⟩)⟩
  case inr.inr.inl =>
    obtain ⟨hseq, hp', -⟩ | ⟨j, -, rfl⟩ := issueWord_answers_or_starts hw
    · simp [PendingIffBusy, hseq, hi, hp']
    · simp [PendingIffBusy]
  case inr.inr.inr =>
    obtain ⟨ht, -⟩ := deliverWord_frame hw
    rw [ht]
    exact hs

/-- What a step does to the host's words: nothing, or it takes the next one, and where that is a configuration command
answered `OK`, its register is bound. -/
theorem step_bgQueue_cases {s t : State} (h : step s = .next t) :
    t.bgQueue = s.bgQueue ∨
      ∃ w, s.bgQueue = w :: t.bgQueue ∧ s.pending = false ∧ ∀ i, decode .bg w = .instr i →
        (∀ r, t.responses[s.responses.length]? = some r → r.status = .ok) → Instr.Bound i t := by
  obtain ⟨-, -, rfl⟩ | ⟨ts, n, ⟨j, -, rfl⟩ | ⟨w, rest, -, hp, hq, hw⟩ | ⟨w, rest, -, hw⟩⟩ := step_cases h
  case inl => exact .inl rfl
  case inr.inl => exact .inl (seqStep_bgQueue j _)
  case inr.inr.inl =>
    obtain ⟨-, -, -, -, hbq, -⟩ := issueWord_frame hw
    refine .inr ⟨w, by rw [hq, hbq], hp, fun i hd hok => ?_⟩
    rw [issueWord_of_instr hd] at hw
    exact exec_bound hw hok
  case inr.inr.inr =>
    obtain ⟨ht, -⟩ := deliverWord_frame hw
    exact .inl (by rw [ht])

/-- At `s`, in the run from `start`: the words issued so far are those responded to or pending, and each configuration
command among them that was not refused has its register bound. -/
def Ledger (start s : State) : Prop :=
  PendingIffBusy s ∧ ∃ issued, start.bgQueue = issued ++ s.bgQueue ∧
    issued.length = s.responses.length + s.pending.toNat ∧
    ∀ (k : Nat) (w : CmdWord) (i : Instr), issued[k]? = some w → decode .bg w = .instr i →
      (∀ r, s.responses[k]? = some r → r.status = .ok) → Instr.Bound i s

theorem Ledger.start {s : State} (h : ResetState s) : Ledger s s := by
  obtain ⟨-, -, -, -, -, hs, -, hp, hr⟩ := h
  exact ⟨by simp [PendingIffBusy, hs, hp], [], rfl, by simp [hp, hr], by simp⟩

theorem Ledger.step {start s t : State} (hs : Ledger start s) (h : step s = .next t) : Ledger start t := by
  obtain ⟨hpb, issued, hq, hlen, hbound⟩ := hs
  obtain ⟨rs, hrs⟩ := step_responses h
  have hdue := step_keeps_responses_due (fun j hj => hpb.mpr ⟨j, hj⟩) h
  have hold (k : Nat) (w : CmdWord) (i : Instr) (hk : issued[k]? = some w) (hd : decode .bg w = .instr i)
      (hok : ∀ r, t.responses[k]? = some r → r.status = .ok) : Instr.Bound i t := by
    refine (hbound k w i hk hd fun r hr => hok r ?_).step h
    obtain ⟨hlt, -⟩ := List.getElem?_eq_some_iff.mp hr
    rw [hrs, List.getElem?_append_left hlt, hr]
  refine ⟨hpb.step h, ?_⟩
  obtain hbq | ⟨w, hbq, hp, hnew⟩ := step_bgQueue_cases h
  · exact ⟨issued, by rw [hq, hbq], by rw [hbq] at hdue; omega, hold⟩
  · refine ⟨issued ++ [w], by rw [hq, hbq]; simp, ?_, fun k v i hk hd hok => ?_⟩
    · simp only [hbq, List.length_cons] at hdue
      simp only [List.length_append, List.length_singleton]
      omega
    · obtain hlt | hge := Nat.lt_or_ge k issued.length
      · exact hold k v i (by rwa [List.getElem?_append_left hlt] at hk) hd hok
      · have hkeq : k = issued.length := by
          obtain ⟨hlt, -⟩ := List.getElem?_eq_some_iff.mp hk
          rw [List.length_append, List.length_singleton] at hlt
          omega
        subst hkeq
        obtain rfl : w = v := by simpa using hk
        rw [hlen, hp] at hok
        exact hnew i hd hok

theorem Ledger.run {start s t : State} {k : Nat} (hs : Ledger start s) (h : runSteps k s = .next t) :
    Ledger start t := by
  induction k generalizing s with
  | zero =>
    obtain rfl := Host.Outcome.next.inj h
    exact hs
  | succ k ih =>
    obtain ⟨u, hu, hrun⟩ := runSteps_succ_cases h
    exact ih (hs.step hu) hrun

/-- A configuration command answered `OK` in a run from a start state is bound. -/
theorem AnsweredOk.bound {start s : State} {n : Nat} {i : Instr} (hst : ResetState start) (hs : Ledger start s)
    (h : AnsweredOk start s n (encode i)) (hi : i.port = .bg) : Instr.Bound i s := by
  obtain ⟨-, -, -, -, -, -, -, hp, hr⟩ := hst
  obtain ⟨-, issued, hq, hlen, hbound⟩ := hs
  obtain ⟨hword, hresp⟩ := h
  rw [hr, hp, Bool.toNat_false, List.length_nil, Nat.add_zero, Nat.zero_add] at hresp
  have hn : n < issued.length := by
    obtain ⟨hlt, -⟩ := List.getElem?_eq_some_iff.mp hresp
    omega
  rw [hq, List.getElem?_append_left hn] at hword
  refine hbound n (encode i) i hword (decode_bg_encode hi) fun r h => ?_
  obtain rfl := Option.some.inj (hresp.symm.trans h)
  rfl

/-- Where steps 2 and 3 of the boot order were done, the wiring is bound. -/
theorem BootAnswered.bound {w : Wiring} {start s : State} (hst : ResetState start) (h : BootAnswered w start s) :
    s.ledCfg = some w.led ∧ s.btnCfg = some w.btn ∧ s.dispCfg = some w.disp ∧ s.chanCfg = some w.chan := by
  obtain ⟨⟨k, hrun⟩, _, _, _, _, -, -, -, hdisp, hchan, hled, hbtn⟩ := h
  have hs := (Ledger.start hst).run hrun
  exact ⟨hled.bound hst hs rfl, hbtn.bound hst hs rfl, hdisp.bound hst hs rfl, hchan.bound hst hs rfl⟩

/-- Settles O58: `boot_responses`, and so the wiring is bound by `BootAnswered.bound`. -/
theorem bootWordsBindTheWiring : Obligations.BootWordsBindTheWiring := by
  intro w chanFirst rest start s k hst hq hrun hlen
  obtain ⟨hl, hb, hd, hc⟩ := (bootAnswered_of_words_first hst hq hrun hlen).bound hst
  obtain ⟨rs, hrs⟩ := boot_responses hst hq hrun hlen
  exact ⟨hl, hb, hd, hc, by rw [hrs]; rfl⟩

/-- Settles O60: `bootAnswered_of_words_first` and `BootAnswered.bound`. -/
theorem bootWiredRunsAreBound : Obligations.BootWiredRunsAreBound := by
  refine ⟨fun w chanFirst rest start s k hst hq hrun hlen => ?_, fun w start s hst h => h.bound hst⟩
  have h := bootAnswered_of_words_first hst hq hrun hlen
  exact ⟨h, fun hready => ⟨hready, h⟩⟩

end Sys2Proof.Machine
